-- ==== Sys2Proof/Word.lean ====
section
/-! DEFINITION. The two bit-vector types of the CORE: the Sample of 10_state.md R20 and the mode field of
30_encoding.md R72. Every other value is a number (00_scope.md R16). -/

namespace Sys2Proof

/-- A Sample: "an 8-bit unsigned integer", bit 7 the most significant (R20, R55). -/
abbrev Sample := BitVec 8

/-- The 3-bit mode field, as the `cfg_mode` port and the `mode` register carry it (R31, R72). -/
abbrev ModeBits := BitVec 3

end Sys2Proof
end

