-- ==== Sys2Proof/Config.lean ====
section
/-! DEFINITION. The construction parameters of the CORE (00_scope.md R9 to R14, 10_state.md R36) and the free values
the spec leaves open (`DRAW()`, R17). -/

namespace Sys2Proof.Config

/-- SMOOTH_IMPL (R12): how Smoothing divides by 9. -/
inductive SmoothImpl where
  /-- "the default numeric mode": truncating division by 9. -/
  | div
  /-- "an alternate fixed-point mode": multiply by RECIP9, shift right by 16. -/
  | fixed
deriving DecidableEq, Repr

/-- The parameters of one configuration, as a host declares them (R9 to R14, R36). They are not state: no operation
writes them. A declared dimension may be any integer, so that the malformed ones of R162 can be written down; the
checks are in `WellFormed.lean` (as a predicate) and in `Machine/Ops.lean` (as the refusal a reset edge makes). -/
structure Params where
  /-- K (R9): 3 for this hardware. -/
  kernelSize : Int
  /-- W (R10): samples per image row. -/
  rowWidth : Int
  /-- H (R11): read by no rule of the CORE; declared or not ("where the host declares H", R162). -/
  height : Option Int
  /-- W_MAX (R10): the storage capacity of the build, left OPEN by the spec. -/
  widthMax : Nat
  /-- SMOOTH_IMPL (R12). -/
  smoothImpl : SmoothImpl
  /-- INIT_FILL (R14): what the row storage holds after reset. -/
  initFill : Sample
  /-- WIN_INIT (R14): what the window holds after reset. -/
  winInit : Sample
deriving DecidableEq, Repr

/-- W as a number of positions: the cursor, `x_cnt` and the row arrays count to it. -/
def Params.w (prm : Params) : Nat := prm.rowWidth.toNat

/-- The parameters `State.reset` has. K, SMOOTH_IMPL, INIT_FILL and WIN_INIT are the spec's (R9, R12, R14).
DESIGN CHOICE (log 2): W is the smallest legal width, W_MAX is 4096, H is not declared. -/
def Params.standard : Params where
  kernelSize := 3
  rowWidth := 3
  height := none
  widthMax := 4096
  smoothImpl := .div
  initFill := 0
  winInit := 0

/-- The free Samples: `DRAW()` of R17, "an unconstrained 8-bit value". It has no body, so no proof knows a value of
it; the n-th free Sample of a run is its value at n, and `State.draws` counts them (log 5). -/
opaque freeSample : Nat → Sample

end Sys2Proof.Config
end

