-- ==== Sys2Proof/Syntax.lean ====
section
/-! DEFINITION. The operations of the CORE, one constructor for each row of opcode_table.json; the input ports of one
clock edge (30_encoding.md R70); the stream programs of R80. -/

namespace Sys2Proof

/-- What the `mode` field selects (R72, R73). No row has an operand field: the operand is the `in_sample` port. -/
inductive Instr where
  /-- 000, NONE (R141). -/
  | bypass
  /-- 001, SMOOTH (R142). -/
  | smooth
  /-- 010, SHARPEN (R143). -/
  | sharpen
  /-- 011, GRADIENT (R144). -/
  | gradient
  /-- 100, CHAIN (R145). -/
  | chain
  /-- 101, reserved (R73). -/
  | reserved101
  /-- 110, reserved (R73). -/
  | reserved110
  /-- 111, reserved (R73). -/
  | reserved111
deriving DecidableEq, Repr

/-- The spellings of a mode: its mnemonic first, then the aliases R79 accepts. A reserved value has none. -/
def Instr.spellings : Instr → List String
  | .bypass => ["NONE", "Bypass"]
  | .smooth => ["SMOOTH", "Smoothing"]
  | .sharpen => ["SHARPEN", "Sharpening"]
  | .gradient => ["GRADIENT", "GradientMagnitude"]
  | .chain => ["CHAIN", "CHAIN_SMOOTH_THEN_GRADIENT", "Chain"]
  | .reserved101 => []
  | .reserved110 => []
  | .reserved111 => []

/-- What the host drives on the input ports at one clock edge (R70); `clk` is the edge itself. -/
structure Edge where
  /-- `rst`, synchronous, active high (R180). -/
  rst : Bool
  /-- `cfg_mode`, sampled on reset edges only (R74). -/
  cfgMode : ModeBits
  /-- `in_sample`, consumed on every edge with `rst = 0` (R75). -/
  inSample : Sample
deriving DecidableEq, Repr

/-- A stream program (R80): `CONFIG mode=<mnemonic> W=<n>`, `FEED …`, `FLUSH <count>`. -/
structure StreamProgram where
  mode : Instr
  width : Int
  feed : List Sample
  flush : Nat
deriving DecidableEq, Repr

/-- The samples a program feeds: its own, then `flush` zeros, the reference flush value (R80, R188). -/
def StreamProgram.samples (prog : StreamProgram) : List Sample :=
  prog.feed ++ List.replicate prog.flush 0

end Sys2Proof
end

