-- ==== Sys2Proof/WellFormed.lean ====
section
/-! DEFINITION. What is well-formed: a mode (10_state.md R31), the construction parameters (60_exceptions.md R162), a
stream program (R80). Each condition of R162 is a check of its own. -/

namespace Sys2Proof

/-- A legal value of the mode register: "Its legal values are 0 to 4; 5, 6 and 7 are reserved and refused" (R31). -/
def Instr.wf : Instr → Bool
  | .bypass => true
  | .smooth => true
  | .sharpen => true
  | .gradient => true
  | .chain => true
  | .reserved101 => false
  | .reserved110 => false
  | .reserved111 => false

namespace Config.Params

/-- Not `bad_width`: W > 0 (R162). -/
def widthPositive (prm : Params) : Bool := decide (0 < prm.rowWidth)

/-- Not `bad_height`: H > 0 where the host declares H (R162). -/
def heightPositive (prm : Params) : Bool :=
  match prm.height with
  | none => true
  | some h => decide (0 < h)

/-- Not `even_kernel`: K is odd (R162). -/
def kernelOdd (prm : Params) : Bool := decide (prm.kernelSize % 2 = 1)

/-- Not `kernel_not_3`: K = 3 (R9, R162). -/
def kernelThree (prm : Params) : Bool := decide (prm.kernelSize = 3)

/-- Not `kernel_wider_than_row`: K ≤ W (R10, R162). -/
def kernelFitsRow (prm : Params) : Bool := decide (prm.kernelSize ≤ prm.rowWidth)

/-- Not `width_over_capacity`: W ≤ W_MAX (R10, R162). -/
def widthFits (prm : Params) : Bool := decide (prm.rowWidth ≤ prm.widthMax)

/-- None of R162's conditions on the parameters holds. -/
def wf (prm : Params) : Bool :=
  prm.widthPositive && prm.heightPositive && prm.kernelOdd && prm.kernelThree && prm.kernelFitsRow && prm.widthFits

end Config.Params

/-- A program's mode is one that has a mnemonic, and its width is legal under the build's other parameters (R80). -/
def StreamProgram.wf (base : Config.Params) (prog : StreamProgram) : Bool :=
  prog.mode.wf && Config.Params.wf { base with rowWidth := prog.width }

end Sys2Proof
end

