-- ==== Sys2Proof/Decode.lean ====
section
/-! DEFINITION. The mode decoder (30_encoding.md R72, R73, R81), total over its 3-bit field; after it the encoder, and
the encoding of a stream program as clock edges (R80). -/

namespace Sys2Proof

/-- The operation a mode value selects (R72); 101, 110 and 111 select the reserved rows (R73), which no cycle runs. -/
def decode (bits : ModeBits) : Instr :=
  if bits = 0b000#3 then .bypass
  else if bits = 0b001#3 then .smooth
  else if bits = 0b010#3 then .sharpen
  else if bits = 0b011#3 then .gradient
  else if bits = 0b100#3 then .chain
  else if bits = 0b101#3 then .reserved101
  else if bits = 0b110#3 then .reserved110
  else .reserved111

/-- The mode value of an operation (R72, R73). -/
def encode : Instr → ModeBits
  | .bypass => 0b000#3
  | .smooth => 0b001#3
  | .sharpen => 0b010#3
  | .gradient => 0b011#3
  | .chain => 0b100#3
  | .reserved101 => 0b101#3
  | .reserved110 => 0b110#3
  | .reserved111 => 0b111#3

/-- The mode field of a table word: its bits 2:0, as the table's mask 0x7 says (log 16). -/
def modeField (w : Nat) : ModeBits := BitVec.ofNat 3 w

/-- What the decoder reads from a word numbered as opcode_table.json numbers it. The field has three bits, so the
decoder refuses no word: a reserved value decodes to its reserved row, which is refused by name when it is sampled or
run (R73, R163). -/
def decodeTableWord (_nbits w : Nat) : Option Instr := some (decode (modeField w))

/-- A clock edge with `rst = 1` and this `cfg_mode`; its `in_sample` is not consumed (R168). -/
def resetEdgeOf (bits : ModeBits) (unread : Sample) : Edge :=
  { rst := true, cfgMode := bits, inSample := unread }

/-- A cycle: an edge with `rst = 0`, the host leaving `cfg_mode` as it was at reset (R70, R74). -/
def cycleEdgeOf (bits : ModeBits) (x : Sample) : Edge :=
  { rst := false, cfgMode := bits, inSample := x }

/-- One reset edge with `cfg_mode`, then one cycle for each sample (R80, R184). -/
def streamEdges (bits : ModeBits) (xs : List Sample) : List Edge :=
  resetEdgeOf bits 0 :: xs.map (cycleEdgeOf bits)

/-- "The encoded form is: one reset cycle with `cfg_mode` equal to the value of rule R72, then one cycle per fed
Sample" (R80). -/
def StreamProgram.edges (prog : StreamProgram) : List Edge :=
  streamEdges (encode prog.mode) prog.samples

/-- Position of in-sample `n` of the stream in the image: (row floor(n/W), column n mod W) (R55). -/
def streamPosition (w n : Nat) : Nat × Nat := (n / w, n % w)

end Sys2Proof
end

