-- ==== Sys2Proof/Machine/State.lean ====
section
/-! DEFINITION. The state of the CORE (10_state.md R20 to R37): the Stage, its three filter instances, the ports of
30_encoding.md R70, and the model's own fields (the parameters, the host's list of edges, the count of free values);
the ways a step stops; the state after reset. -/

namespace Sys2Proof.Machine

open Sys2Proof.Config (Params)

/-- The row storage of one instance (20_memory.md R50) in one canonical form: addresses strictly rising, no entry equal
to what an unlisted address reads as, INIT_FILL (log 9). The key of address (i, p) is `rowAddr`, i·W + p. -/
abbrev Memory := List Host.Cell

/-- RowHistory state (R22, R23, R24). `RH.ready` is no field (R25). -/
structure RowHistory where
  /-- `RH.rows`: the stored rows. -/
  rows : Memory
  /-- `RH.cursor`, in [0, W). -/
  cursor : Nat
  /-- `RH.completed`, 0 to K, saturating. -/
  completed : Nat
deriving DecidableEq, Repr

/-- SlidingWindow state (R26): `win[i][j]`, row 0 the oldest image row, column 0 the oldest position (R18). -/
structure SlidingWindow (k : Nat) where
  win : Vector (Vector Sample k) k
deriving DecidableEq, Repr

/-- One filter instance (R21): its RowHistory, its window and its position counters (R27). Its valid output is no
field (R28). -/
structure FilterInst where
  rh : RowHistory
  sw : SlidingWindow 3
  /-- `x_cnt`, in [0, W). -/
  xCnt : Nat
  /-- `y_cnt`, unbounded (R27, D14). -/
  yCnt : Nat
deriving DecidableEq, Repr

/-- The complete architectural state (R33): the mode register and the three instances (R21). -/
structure Stage where
  /-- `mode` (R31). -/
  mode : ModeBits
  /-- F_S, Smoothing. -/
  fS : FilterInst
  /-- F_SH, Sharpening. -/
  fSH : FilterInst
  /-- F_G, GradientMagnitude. -/
  fG : FilterInst
deriving DecidableEq, Repr

/-- The output ports `out_sample` and `out_valid` (R70, R71). -/
structure Output where
  sample : Sample
  valid : Bool
deriving DecidableEq, Repr

/-- The machine: the architectural state, the ports, and what the model itself needs. -/
structure State where
  /-- Everything the spec gives the CORE to remember (R33). -/
  stage : Stage
  /-- The input ports at the present edge (R70). -/
  ins : Edge
  /-- The output ports at the last edge (R70). -/
  out : Output
  /-- MODEL: the construction parameters, which no step writes (R36, log 1). -/
  cfg : Params
  /-- MODEL: the edges the host has yet to drive, next first (log 4). -/
  pending : List Edge
  /-- MODEL: how many free Samples have been used (log 5). -/
  draws : Nat
deriving DecidableEq, Repr

/-- Why the machine stops with a fault. The CORE has no runtime fault (R160); the one reason here needs a state that no
run reaches. -/
inductive Fault where
  /-- Raised by RowHistory.advance (`rowHistoryAdvance`) where the cursor is not below W, an address the row storage does
  not have (R50, R56). Safe: the model stops where the spec has no such access (log 10). -/
  | rowPositionOutsideStorage
deriving DecidableEq, Repr

/-- Why a step has no meaning. -/
inductive Refusal where
  /-- Raised by exec for an instruction that has no meaning yet: none in this model. Safe. -/
  | notModelled (mnemonic : String)
  /-- `bad_width`: raised by the configuration check, W ≤ 0 (R162). Safe. -/
  | badWidth
  /-- `bad_height`: raised by the configuration check, a declared H ≤ 0 (R162). Safe. -/
  | badHeight
  /-- `even_kernel`: raised by the configuration check, K even (R162). Safe. -/
  | evenKernel
  /-- `kernel_not_3`: raised by the configuration check, K ≠ 3 (R162). Safe. -/
  | kernelNotThree
  /-- `kernel_wider_than_row`: raised by the configuration check, K > W (R162). Safe. -/
  | kernelWiderThanRow
  /-- `width_over_capacity`: raised by the configuration check, W > W_MAX (R162). Safe. -/
  | widthOverCapacity
  /-- `reserved_mode`: raised by a reset edge that samples 101, 110 or 111, and by the reserved rows (R73, R163).
  Safe. -/
  | reservedMode
  /-- `mode_change_mid_stream`: raised by an edge with `rst = 0` on which `cfg_mode` differs from `mode` (R186). Safe. -/
  | modeChangeMidStream
deriving DecidableEq, Repr

/-- A filter instance after reset (R180, R181). The storage lists nothing: every element reads as INIT_FILL. -/
def FilterInst.fresh (prm : Params) : FilterInst where
  rh := { rows := [], cursor := 0, completed := 0 }
  sw := { win := Vector.replicate 3 (Vector.replicate 3 prm.winInit) }
  xCnt := 0
  yCnt := 0

/-- The machine right after a reset edge (R180, R181, R182) that sampled `cfg_mode` = 000 under the standard parameters.
DESIGN CHOICE: the sampled mode (log 3), the parameters W and W_MAX (log 2), the port values (log 6, log 7), nothing
listed by the host (log 4), no free value used (log 5). -/
def State.reset : State where
  stage :=
    { mode := 0b000#3
      fS := FilterInst.fresh Params.standard
      fSH := FilterInst.fresh Params.standard
      fG := FilterInst.fresh Params.standard }
  ins := { rst := true, cfgMode := 0b000#3, inSample := 0 }
  out := { sample := 0, valid := false }
  cfg := Params.standard
  pending := []
  draws := 0

end Sys2Proof.Machine
end

