-- ==== Sys2Proof/Machine/Flags.lean ====
section
/-! DEFINITION. The three Boolean signals of the CORE (10_state.md R35). None is stored: each is computed from the
counters. The CORE has no condition codes. -/

namespace Sys2Proof.Machine

/-- kernel_radius = K div 2 (R9). -/
def kernelRadius (k : Nat) : Nat := k / 2

/-- `RH.ready = (RH.completed ≥ K−1)` (R25, R101). -/
def rowHistoryReady (k : Nat) (rh : RowHistory) : Bool := decide (k - 1 ≤ rh.completed)

/-- `valid = RH.ready ∧ (y_cnt > kernel_radius)`, read in the state after the call's updates, K = 3 (R122). -/
def filterValid (f : FilterInst) : Bool :=
  rowHistoryReady 3 f.rh && decide (kernelRadius 3 < f.yCnt)

/-- `out_valid` of a chain call: both filters valid (R145). -/
def chainValid (sValid gValid : Bool) : Bool := sValid && gValid

end Sys2Proof.Machine
end

