-- ==== Sys2Proof/Machine/Operands.lean ====
section
/-! DEFINITION. The operands of the reductions: the nine window positions by name (00_scope.md R18, 30_encoding.md R77),
the constant operands (R78) and the linear sums over a window, all in exact integers (R16, R134). -/

namespace Sys2Proof.Machine

/-- The 3×3 window a reduction reads. -/
abbrev Window := SlidingWindow 3

/-- `win[i][j]`, zero-extended to an integer (R16, R78). -/
def Window.cell (sw : Window) (i j : Fin 3) : Int := (sw.win[i][j].toNat : Int)

/-- C = win[1][1] (R18). -/
def Window.center (sw : Window) : Int := Window.cell sw 1 1

/-- N = win[0][1] (R18). -/
def Window.north (sw : Window) : Int := Window.cell sw 0 1

/-- S = win[2][1] (R18). -/
def Window.south (sw : Window) : Int := Window.cell sw 2 1

/-- Wt = win[1][0] (R18). -/
def Window.west (sw : Window) : Int := Window.cell sw 1 0

/-- E = win[1][2] (R18). -/
def Window.east (sw : Window) : Int := Window.cell sw 1 2

/-- A 3×3 kernel of signed integers (R78). -/
abbrev Kernel := Vector (Vector Int 3) 3

/-- Smoothing's kernel: the unweighted sum (R126). -/
def smoothKernel : Kernel := #v[#v[1, 1, 1], #v[1, 1, 1], #v[1, 1, 1]]

/-- Sharpening's kernel (R78). -/
def sharpenKernel : Kernel := #v[#v[0, -1, 0], #v[-1, 5, -1], #v[0, -1, 0]]

/-- Gx (R78). -/
def gxKernel : Kernel := #v[#v[-1, 0, 1], #v[-2, 0, 2], #v[-1, 0, 1]]

/-- Gy (R78). -/
def gyKernel : Kernel := #v[#v[-1, -2, -1], #v[0, 0, 0], #v[1, 2, 1]]

/-- Row i of `Σ k[i][j]·win[i][j]`. -/
def Kernel.row (k : Kernel) (sw : Window) (i : Fin 3) : Int :=
  k[i][0] * Window.cell sw i 0 + k[i][1] * Window.cell sw i 1 + k[i][2] * Window.cell sw i 2

/-- A kernel applied to a window as R18 says: `Σ_{i,j} k[i][j]·win[i][j]` (correlation, D11). -/
def Kernel.apply (k : Kernel) (sw : Window) : Int :=
  Kernel.row k sw 0 + Kernel.row k sw 1 + Kernel.row k sw 2

/-- The kernel read the other way, `k[2−i][2−j]` (convolution, R131). -/
def Kernel.flip (k : Kernel) : Kernel :=
  #v[#v[k[2][2], k[2][1], k[2][0]], #v[k[1][2], k[1][1], k[1][0]], #v[k[0][2], k[0][1], k[0][0]]]

/-- The divisor of Smoothing (R78). -/
def smoothDivisor : Nat := 9

/-- RECIP9 (R13, D13): the fixed-point multiplier for 1/9. -/
def recip9 : Nat := 7282

/-- `(s · c) >> 16`, the fixed-point quotient with multiplier c (R12, R126). -/
def fixedQuotient (c s : Nat) : Nat := (s * c) >>> 16

/-- The unweighted sum of the nine samples, 0 to 2295 (R126). -/
def smoothSum (sw : Window) : Nat :=
  sw.win[0][0].toNat + sw.win[0][1].toNat + sw.win[0][2].toNat
    + sw.win[1][0].toNat + sw.win[1][1].toNat + sw.win[1][2].toNat
    + sw.win[2][0].toNat + sw.win[2][1].toNat + sw.win[2][2].toNat

/-- `v = 5·C − N − S − Wt − E`, an exact signed integer, −1020 to 1275 (R127). -/
def sharpenSum (sw : Window) : Int :=
  5 * Window.center sw - Window.north sw - Window.south sw - Window.west sw - Window.east sw

/-- `gx`, −1020 to 1020 (R128). -/
def gradX (sw : Window) : Int :=
  (Window.cell sw 0 2 - Window.cell sw 0 0) + 2 * (Window.cell sw 1 2 - Window.cell sw 1 0)
    + (Window.cell sw 2 2 - Window.cell sw 2 0)

/-- `gy`, −1020 to 1020 (R128). -/
def gradY (sw : Window) : Int :=
  (Window.cell sw 2 0 - Window.cell sw 0 0) + 2 * (Window.cell sw 2 1 - Window.cell sw 0 1)
    + (Window.cell sw 2 2 - Window.cell sw 0 2)

/-- `clamp(v, lo, hi) = min(hi, max(lo, v))` (R16). -/
def clamp (v lo hi : Int) : Int := min hi (max lo v)

/-- A number that a rule has brought into [0, 255], as a Sample (R132). -/
def sampleOfNat (n : Nat) : Sample := BitVec.ofNat 8 n

end Sys2Proof.Machine
end

