-- ==== Sys2Proof/Machine/Ops.lean ====
section
/-! DEFINITION. The shared operations: the row storage as a memory (20_memory.md R50 to R52), free values (R17), the
output ports, the ports of the next clock edge (R70), the configuration check (60_exceptions.md R162) and the reset edge
(70_reset_and_hazards.md R180, R182).

The CORE takes no exception and returns from none (R160, R167, R169), so there is no such operation to share; reset is
the only way to a known state (R169). -/

namespace Sys2Proof.Machine

open Sys2Proof.Config (Params)

/-! ### The row storage -/

/-- The byte at address `a`; an unlisted address reads as `fill`, which is INIT_FILL (R22, R180). -/
def Memory.read (fill : Sample) : Memory → Nat → Sample
  | [], _ => fill
  | (b, u) :: m, a => if b = a then u else Memory.read fill m a

/-- Store `v` at address `a` and keep the canonical form: a byte equal to `fill` is not listed. -/
def Memory.write (fill : Sample) : Memory → Nat → Sample → Memory
  | [], a, v => if v = fill then [] else [(a, v)]
  | (b, u) :: m, a, v =>
    if a < b then (if v = fill then (b, u) :: m else (a, v) :: (b, u) :: m)
    else if a = b then (if v = fill then m else (a, v) :: m)
    else (b, u) :: Memory.write fill m a v

/-- The canonical form from address `lo` on: addresses strictly rising, none below `lo`, no entry equal to `fill`. -/
def Memory.wfFrom (fill : Sample) : Nat → Memory → Bool
  | _, [] => true
  | lo, (a, v) :: m => decide (lo ≤ a) && decide (v ≠ fill) && Memory.wfFrom fill (a + 1) m

/-- The canonical form of a memory (log 9). -/
def Memory.wf (fill : Sample) (m : Memory) : Bool := Memory.wfFrom fill 0 m

/-- Every listed address is below `size`. -/
def Memory.below (size : Nat) (m : Memory) : Bool := m.all fun c => decide (c.1 < size)

/-- The key of address (i, p): buffered row i, position p (R50). -/
def rowAddr (prm : Params) (i p : Nat) : Nat := i * prm.w + p

/-- `MemRead((f, i, p), 1)` on the storage of one instance (R50). -/
def memRead (prm : Params) (m : Memory) (i p : Nat) : Sample :=
  Memory.read prm.initFill m (rowAddr prm i p)

/-- `MemWrite((f, i, p), 1, v)` on the storage of one instance (R50). -/
def memWrite (prm : Params) (m : Memory) (i p : Nat) (v : Sample) : Memory :=
  Memory.write prm.initFill m (rowAddr prm i p) v

/-- `MemWrite((f, i, p), 1, v)` for i, i+1, … and the listed values in order, all at position p (R51). -/
def storeColumn (prm : Params) (p : Nat) : Nat → List Sample → Memory → Memory
  | _, [], m => m
  | i, v :: vs, m => storeColumn prm p (i + 1) vs (memWrite prm m i p v)

/-! ### Registers and ports -/

/-- F_S gets a new state. -/
def State.withFS (s : State) (f : FilterInst) : State := { s with stage := { s.stage with fS := f } }

/-- F_SH gets a new state. -/
def State.withFSH (s : State) (f : FilterInst) : State := { s with stage := { s.stage with fSH := f } }

/-- F_G gets a new state. -/
def State.withFG (s : State) (f : FilterInst) : State := { s with stage := { s.stage with fG := f } }

/-- Drive `out_sample` and `out_valid` (R70, R140). -/
def State.drive (s : State) (o : Output) : State := { s with out := o }

/-- Drive `out_sample` with a draw and `out_valid` with 0 (R145, R182); one more free value is used. -/
def State.driveDraw (s : State) : State :=
  { s with out := { sample := Config.freeSample s.draws, valid := false }, draws := s.draws + 1 }

/-- The input ports at the next clock edge: the next listed edge. DESIGN CHOICE (log 4): where the host has listed
nothing more, an edge with `rst = 0`, `cfg_mode` as at reset and a free `in_sample`. -/
def State.present (s : State) : State :=
  match s.pending with
  | e :: rest => { s with ins := e, pending := rest }
  | [] =>
    { s with
      ins := { rst := false, cfgMode := s.stage.mode, inSample := Config.freeSample s.draws }
      draws := s.draws + 1 }

/-- The host lists these edges as the next ones. -/
def State.listing (s : State) (es : List Edge) : State := { s with pending := es }

/-- The host configures the build for a stream program and lists its edges (R80, R184). -/
def State.load (s : State) (prog : StreamProgram) : State :=
  { s with cfg := { s.cfg with rowWidth := prog.width }, pending := prog.edges }

/-- `mode` holds the mode field of a table word, and the next edge is a cycle with `cfg_mode` at that value, so that
the next step runs it (log 8). -/
def State.placeModeWord (s : State) (w : Nat) : State :=
  { s with
    stage := { s.stage with mode := modeField w }
    pending := cycleEdgeOf (modeField w) s.ins.inSample :: s.pending }

/-! ### Configuration and reset -/

/-- The refusal of a malformed set of parameters, the first of R162's table that holds (DESIGN CHOICE, log 11: "any one
may be reported"). -/
def paramsRefusal (prm : Params) : Option Refusal :=
  if prm.rowWidth ≤ 0 then some .badWidth
  else if prm.height.any (fun h => decide (h ≤ 0)) then some .badHeight
  else if prm.kernelSize % 2 = 0 then some .evenKernel
  else if prm.kernelSize ≠ 3 then some .kernelNotThree
  else if prm.rowWidth < prm.kernelSize then some .kernelWiderThanRow
  else if (prm.widthMax : Int) < prm.rowWidth then some .widthOverCapacity
  else none

/-- 101, 110 and 111 are reserved (R73). -/
def modeReserved (bits : ModeBits) : Bool := decide (4 < bits.toNat)

/-- The configuration check of a reset edge, "with `cfg_mode` as the mode" (R162, R163, R180). -/
def configRefusal (prm : Params) (bits : ModeBits) : Option Refusal :=
  match paramsRefusal prm with
  | some r => some r
  | none => if modeReserved bits then some .reservedMode else none

/-- The construction state of one instance (R180). -/
def constructInst (prm : Params) : FilterInst where
  rh := { rows := [], cursor := 0, completed := 0 }
  sw := { win := Vector.replicate 3 (Vector.replicate 3 prm.winInit) }
  xCnt := 0
  yCnt := 0

/-- The construction state of the Stage: the sampled mode and three fresh instances (R180, R185). -/
def constructStage (prm : Params) (bits : ModeBits) : Stage where
  mode := bits
  fS := constructInst prm
  fSH := constructInst prm
  fG := constructInst prm

/-- A clock edge with `rst = 1` (R180): check the configuration, then construct. `in_sample` is not read (R168),
`out_valid` is 0 and `out_sample` a draw (R182). -/
def resetEdge (s : State) : Host.Outcome State Fault Refusal :=
  match configRefusal s.cfg s.ins.cfgMode with
  | some r => .refused r
  | none => .next (State.driveDraw { s with stage := constructStage s.cfg s.ins.cfgMode })

/-- Why an edge with `rst = 0` is refused before any operation runs: a malformed configuration has no step (R162, log
12), and `cfg_mode` moved away from `mode` is a mid-stream mode change (R74, R186, log 13). -/
def cycleRefusal (s : State) : Option Refusal :=
  match paramsRefusal s.cfg with
  | some r => some r
  | none => if s.ins.cfgMode = s.stage.mode then none else some .modeChangeMidStream

end Sys2Proof.Machine
end

