-- ==== Sys2Proof/Machine/RowHistory.lean ====
section
/-! DEFINITION. RowHistory (40_row_history.md R100 to R104), for any kernel size k as the spec states it (R9). -/

namespace Sys2Proof.Machine

open Sys2Proof.Config (Params)

/-- The column a call returns, read before anything is written (R52, R100): element i < K−1 is the stored sample of row
i at the cursor, element K−1 the incoming one. -/
def rowHistoryColumn (k : Nat) (prm : Params) (rh : RowHistory) (incoming : Sample) : Vector Sample k :=
  Vector.ofFn fun i => if i.val + 1 < k then memRead prm rh.rows i.val rh.cursor else incoming

/-- The storage after the call: row i takes `column[i+1]`, so the rows shift up by one and row K−2 takes the incoming
sample (R51 (b), R100). -/
def rowHistoryStored (k : Nat) (prm : Params) (rh : RowHistory) (incoming : Sample) : Memory :=
  storeColumn prm rh.cursor 0 (rowHistoryColumn k prm rh incoming).toList.tail rh.rows

/-- The cursor after the call: one further, wrapping from W−1 to 0 (R23, R100). -/
def cursorNext (prm : Params) (cursor : Nat) : Nat := if cursor + 1 = prm.w then 0 else cursor + 1

/-- The completed count after the call: one more on a wrap, saturating at K (R24, R100). -/
def completedNext (k : Nat) (prm : Params) (rh : RowHistory) : Nat :=
  if rh.cursor + 1 = prm.w then min (rh.completed + 1) k else rh.completed

/-- `RH.advance(incoming) -> column` (R100). Every access of the call is at the cursor (R51), so one check says whether
the addresses exist (R50, log 10). -/
def rowHistoryAdvance (k : Nat) (prm : Params) (rh : RowHistory) (incoming : Sample) :
    Except Fault (Vector Sample k × RowHistory) :=
  if rh.cursor < prm.w then
    .ok (rowHistoryColumn k prm rh incoming,
      { rows := rowHistoryStored k prm rh incoming
        cursor := cursorNext prm rh.cursor
        completed := completedNext k prm rh })
  else .error .rowPositionOutsideStorage

end Sys2Proof.Machine
end

