-- ==== Sys2Proof/Machine/Window.lean ====
section
/-! DEFINITION. SlidingWindow (41_sliding_window.md R110), for any kernel size k as the spec states it (R9). -/

namespace Sys2Proof.Machine

/-- `SW.shift(column)` (R110): in each row, every element takes its right neighbour's value and the last takes the
newest column's. -/
def windowShift (k : Nat) (sw : SlidingWindow k) (column : Vector Sample k) : SlidingWindow k where
  win := Vector.ofFn fun i => Vector.ofFn fun j =>
    if h : j.val + 1 < k then (sw.win[i])[j.val + 1] else column[i]

end Sys2Proof.Machine
end

