-- ==== Sys2Proof/Machine/Filters.lean ====
section
/-! DEFINITION. The three reductions (42_filters.md R124, R126, R127, R128) and the per-call operation of a filter
instance (R120, R121, R122). -/

namespace Sys2Proof.Machine

open Sys2Proof.Config (Params SmoothImpl)

/-- Smoothing (R126): the floor of the mean, by division or by the fixed-point multiplier. -/
def reduceSmooth (impl : SmoothImpl) (sw : Window) : Sample :=
  match impl with
  | .div => sampleOfNat (smoothSum sw / smoothDivisor)
  | .fixed => sampleOfNat (fixedQuotient recip9 (smoothSum sw))

/-- Sharpening (R127): `clamp(v, 0, 255)`. -/
def reduceSharpen (sw : Window) : Sample := sampleOfNat (clamp (sharpenSum sw) 0 255).toNat

/-- GradientMagnitude (R128): `min(255, |gx| + |gy|)`. -/
def reduceGradient (sw : Window) : Sample :=
  sampleOfNat (min 255 ((gradX sw).natAbs + (gradY sw).natAbs))

/-- Which reduction an instance has, fixed at construction (R124). -/
inductive Reduction where
  /-- F_S. -/
  | smoothing
  /-- F_SH. -/
  | sharpening
  /-- F_G. -/
  | gradientMagnitude
deriving DecidableEq, Repr

/-- `Reduce_f(win)` (R124). -/
def reduce (red : Reduction) (prm : Params) (sw : Window) : Sample :=
  match red with
  | .smoothing => reduceSmooth prm.smoothImpl sw
  | .sharpening => reduceSharpen sw
  | .gradientMagnitude => reduceGradient sw

/-- x_cnt after a call: one more, 0 on reaching W (R121). -/
def xCntNext (prm : Params) (f : FilterInst) : Nat := if f.xCnt + 1 = prm.w then 0 else f.xCnt + 1

/-- y_cnt after a call: one more when x_cnt reaches W, and never saturating (R121). -/
def yCntNext (prm : Params) (f : FilterInst) : Nat := if f.xCnt + 1 = prm.w then f.yCnt + 1 else f.yCnt

/-- What a call of a filter instance returns and leaves (R120). -/
structure Processed where
  /-- `sample_out`. -/
  sample : Sample
  /-- `valid`. -/
  valid : Bool
  /-- The instance's state after the call. -/
  inst : FilterInst
deriving DecidableEq, Repr

/-- `f.process(sample_in) -> (sample_out, valid)` (R120): RowHistory, SlidingWindow, reduction of the shifted window,
counters, and then valid on the state the updates leave (R58, R122). -/
def filterProcess (red : Reduction) (prm : Params) (f : FilterInst) (x : Sample) : Except Fault Processed :=
  match rowHistoryAdvance 3 prm f.rh x with
  | .error e => .error e
  | .ok (column, rh) =>
    let sw := windowShift 3 f.sw column
    let f' : FilterInst := { rh := rh, sw := sw, xCnt := xCntNext prm f, yCnt := yCntNext prm f }
    .ok { sample := reduce red prm sw, valid := filterValid f', inst := f' }

end Sys2Proof.Machine
end

