-- ==== Sys2Proof/Machine/Stage.lean ====
section
/-! DEFINITION. The meanings of the rows of opcode_table.json: the five operations of the Stage (43_stage.md R141 to
R145) and the three reserved values (30_encoding.md R73). Each is one `Stage.process(in_sample)` (R140). -/

namespace Sys2Proof.Machine

/-- NONE (R141): `return (in_sample, true)`; no instance is called. -/
def execBypass (s : State) : Host.Outcome State Fault Refusal :=
  .next (s.drive { sample := s.ins.inSample, valid := true })

/-- SMOOTH (R142): `return F_S.process(in_sample)`. -/
def execSmooth (s : State) : Host.Outcome State Fault Refusal :=
  match filterProcess .smoothing s.cfg s.stage.fS s.ins.inSample with
  | .error e => .fault e
  | .ok r => .next ((s.withFS r.inst).drive { sample := r.sample, valid := r.valid })

/-- SHARPEN (R143): `return F_SH.process(in_sample)`. -/
def execSharpen (s : State) : Host.Outcome State Fault Refusal :=
  match filterProcess .sharpening s.cfg s.stage.fSH s.ins.inSample with
  | .error e => .fault e
  | .ok r => .next ((s.withFSH r.inst).drive { sample := r.sample, valid := r.valid })

/-- GRADIENT (R144): `return F_G.process(in_sample)`. -/
def execGradient (s : State) : Host.Outcome State Fault Refusal :=
  match filterProcess .gradientMagnitude s.cfg s.stage.fG s.ins.inSample with
  | .error e => .fault e
  | .ok r => .next ((s.withFG r.inst).drive { sample := r.sample, valid := r.valid })

/-- CHAIN (R145): F_S on every cycle; F_G on F_S's output where F_S is valid, and a draw with `out_valid` = 0 where it is
not. -/
def execChain (s : State) : Host.Outcome State Fault Refusal :=
  match filterProcess .smoothing s.cfg s.stage.fS s.ins.inSample with
  | .error e => .fault e
  | .ok rS =>
    if rS.valid then
      match filterProcess .gradientMagnitude s.cfg s.stage.fG rS.sample with
      | .error e => .fault e
      | .ok rG =>
        .next (((s.withFS rS.inst).withFG rG.inst).drive
          { sample := rG.sample, valid := chainValid rS.valid rG.valid })
    else .next (s.withFS rS.inst).driveDraw

/-- 101 (R73): "The model gives it no step." -/
def execReserved101 (_s : State) : Host.Outcome State Fault Refusal := .refused .reservedMode

/-- 110 (R73): "The model gives it no step." -/
def execReserved110 (_s : State) : Host.Outcome State Fault Refusal := .refused .reservedMode

/-- 111 (R73): "The model gives it no step." -/
def execReserved111 (_s : State) : Host.Outcome State Fault Refusal := .refused .reservedMode

end Sys2Proof.Machine
end

