-- ==== Sys2Proof/Machine/Dispatch.lean ====
section
/-! DEFINITION. One arm for each row of opcode_table.json. -/

namespace Sys2Proof.Machine

def exec (i : Instr) (s : State) : Host.Outcome State Fault Refusal :=
  match i with
  | .bypass => Sys2Proof.Machine.execBypass s
  | .smooth => Sys2Proof.Machine.execSmooth s
  | .sharpen => Sys2Proof.Machine.execSharpen s
  | .gradient => Sys2Proof.Machine.execGradient s
  | .chain => Sys2Proof.Machine.execChain s
  | .reserved101 => Sys2Proof.Machine.execReserved101 s
  | .reserved110 => Sys2Proof.Machine.execReserved110 s
  | .reserved111 => Sys2Proof.Machine.execReserved111 s

end Sys2Proof.Machine
end

