-- ==== Sys2Proof/Machine/Cycle.lean ====
section
/-! DEFINITION. One clock edge (30_encoding.md R70, 60_exceptions.md R168, 43_stage.md R140), called by Step.lean. -/

namespace Sys2Proof.Machine

/-- An edge with `rst = 0` (R70, R140): the operation `mode` selects, unless the edge is refused (R162, R186). -/
def cycleEdge (s : State) : Host.Outcome State Fault Refusal :=
  match cycleRefusal s with
  | some r => .refused r
  | none => exec (decode s.stage.mode) s

/-- A clock edge: "When `rst = 1`, reset wins" (R168). -/
def clockEdge (s : State) : Host.Outcome State Fault Refusal :=
  if s.ins.rst then resetEdge s else cycleEdge s

end Sys2Proof.Machine
end

