-- ==== Sys2Proof/Machine/Step.lean ====
section
/-! DEFINITION. One step: the input ports of the next clock edge are driven, and the edge happens (R15, R70). -/

namespace Sys2Proof.Machine

/-- One step is one clock edge. -/
def step (s : State) : Host.Outcome State Fault Refusal := clockEdge s.present

/-- The state with a table word as its mode, run by the very next step (log 8). -/
def State.withFetchWord (s : State) (_nbits w : Nat) : State := s.placeModeWord w

end Sys2Proof.Machine
end

