-- ==== Sys2Proof/Safety.lean ====
section
/-! DEFINITION. The terms claims are stated in: the invariant of a configured machine (10_state.md R29), runs and their
traces (70_reset_and_hazards.md R197), an instance or a component fed a stream (R102, R112, R113), the startup latency
(R195). None of these is called by a step. -/

namespace Sys2Proof.Machine

open Sys2Proof.Config (Params)

/-! ### Invariants -/

/-- What holds of a filter instance in every reachable state (R23, R24, R29), and that its storage is in canonical form
and lists only addresses the storage has (R50, log 9). -/
abbrev FilterInst.Inv (prm : Params) (f : FilterInst) : Prop :=
  f.rh.cursor < prm.w ∧ f.xCnt = f.rh.cursor ∧ f.rh.completed = min f.yCnt 3 ∧
    Memory.wf prm.initFill f.rh.rows = true ∧ Memory.below (2 * prm.w) f.rh.rows = true

/-- What holds of a configured machine: the parameters are well-formed (R162), the mode is a legal one (R31), and each
instance meets its invariant. -/
abbrev State.Inv (s : State) : Prop :=
  s.cfg.wf = true ∧ (decode s.stage.mode).wf = true ∧
    FilterInst.Inv s.cfg s.stage.fS ∧ FilterInst.Inv s.cfg s.stage.fSH ∧ FilterInst.Inv s.cfg s.stage.fG

/-! ### Runs -/

/-- `n` clock edges (R197: the host decides how many). -/
def steps : Nat → State → Host.Outcome State Fault Refusal
  | 0, s => .next s
  | n + 1, s =>
    match step s with
    | .next t => steps n t
    | .fault e => .fault e
    | .refused r => .refused r

/-- What `n` clock edges show on the output ports, first edge first; it ends where a step stops (R197). -/
def trace : Nat → State → List Output
  | 0, _ => []
  | n + 1, s =>
    match step s with
    | .next t => t.out :: trace n t
    | .fault _ => []
    | .refused _ => []

/-- The startup latency L of a mode (R195); a reserved value has none. -/
def startupLatency (i : Instr) (w : Nat) : Nat :=
  match i with
  | .bypass => 0
  | .smooth => 2 * w - 1
  | .sharpen => 2 * w - 1
  | .gradient => 2 * w - 1
  | .chain => 4 * w - 2
  | .reserved101 => 0
  | .reserved110 => 0
  | .reserved111 => 0

/-- The condition of R162's table under which a refusal may be reported at a reset edge that samples `bits`. The two
reasons that are not in the table have none. -/
abbrev refusalCondition (r : Refusal) (prm : Params) (bits : ModeBits) : Prop :=
  match r with
  | .badWidth => prm.rowWidth ≤ 0
  | .badHeight => ∃ h, prm.height = some h ∧ h ≤ 0
  | .evenKernel => prm.kernelSize % 2 = 0
  | .kernelNotThree => prm.kernelSize ≠ 3
  | .kernelWiderThanRow => prm.rowWidth < prm.kernelSize
  | .widthOverCapacity => (prm.widthMax : Int) < prm.rowWidth
  | .reservedMode => bits = 0b101#3 ∨ bits = 0b110#3 ∨ bits = 0b111#3
  | _ => False

/-! ### Components fed a stream -/

/-- s(m), the m-th Sample of a stream, and INIT_FILL for m < 0 (R102). -/
def streamAt (fill : Sample) (xs : List Sample) (m : Int) : Sample :=
  if m < 0 then fill else xs.getD m.toNat fill

/-- The window after call `n` (from 0) of an instance fed `xs` since reset, in closed form (R113). -/
def windowAt (prm : Params) (xs : List Sample) (n : Nat) : Window where
  win := Vector.ofFn fun i => Vector.ofFn fun j =>
    if (n : Int) - (2 - (j.val : Int)) < 0 then prm.winInit
    else streamAt prm.initFill xs ((n : Int) - (2 - (j.val : Int)) - (2 - (i.val : Int)) * (prm.w : Int))

/-- o_S(0), o_S(1), …: what F_S returns on each call of a stream (R147). -/
def smoothedStream (prm : Params) (xs : List Sample) : List Sample :=
  (List.range xs.length).map fun n => reduce .smoothing prm (windowAt prm xs n)

/-- A RowHistory called once for each Sample of a stream: the columns it returns and the state it ends in. -/
def rowHistoryFeed (k : Nat) (prm : Params) : RowHistory → List Sample → Except Fault (List (Vector Sample k) × RowHistory)
  | rh, [] => .ok ([], rh)
  | rh, x :: xs =>
    match rowHistoryAdvance k prm rh x with
    | .error e => .error e
    | .ok (column, rh') =>
      match rowHistoryFeed k prm rh' xs with
      | .error e => .error e
      | .ok (columns, last) => .ok (column :: columns, last)

/-- A window shifted once for each column of a list. -/
def windowFeed (k : Nat) (sw : SlidingWindow k) (columns : List (Vector Sample k)) : SlidingWindow k :=
  columns.foldl (windowShift k) sw

/-- A filter instance called once for each Sample of a stream: its outputs and the state it ends in. -/
def instFeed (red : Reduction) (prm : Params) : FilterInst → List Sample → Except Fault (List Output × FilterInst)
  | f, [] => .ok ([], f)
  | f, x :: xs =>
    match filterProcess red prm f x with
    | .error e => .error e
    | .ok r =>
      match instFeed red prm r.inst xs with
      | .error e => .error e
      | .ok (outs, last) => .ok ({ sample := r.sample, valid := r.valid } :: outs, last)

end Sys2Proof.Machine
end

