-- ==== Sys2Proof/Certificates/Slice0/Obligations.lean ====
section
/-! DEFINITION. The statements about the CORE, each from the rules of spec/ its docstring names. A statement whose rule
carries the spec's own mark [derived: …] says so: it is the spec's inference, and is proved here of the model. -/

open Sys2Proof Sys2Proof.Machine
open Sys2Proof.Config (Params SmoothImpl)

/-! ### Encoding, decoding, one step -/

/-- R72: the five mode values; with them what 101, 110 and 111 decode to. -/
def Obligations.ModeValuesDecodeAsTabled : Prop :=
  decode 0b000#3 = .bypass ∧ decode 0b001#3 = .smooth ∧ decode 0b010#3 = .sharpen ∧
  decode 0b011#3 = .gradient ∧ decode 0b100#3 = .chain ∧
  decode 0b101#3 = .reserved101 ∧ decode 0b110#3 = .reserved110 ∧ decode 0b111#3 = .reserved111

/-- Decoding and encoding agree, both ways (30_encoding.md R72, R81). -/
def Obligations.DecodeEncodeAgree : Prop :=
  (∀ i : Instr, decode (encode i) = i) ∧ (∀ bits : ModeBits, encode (decode bits) = bits)

/-- R140 and R70 as one step: an edge with `rst = 0` runs the operation of the mode register on that edge's sample. The
second clause is the model's choice for an edge the host has not listed (log 4, log 5). -/
def Obligations.StepRunsDecodedInstruction : Prop :=
  ∀ s : State, s.cfg.wf = true →
    (∀ (e : Edge) (rest : List Edge), s.pending = e :: rest → e.rst = false → e.cfgMode = s.stage.mode →
      step s = exec (decode s.stage.mode) { s with ins := e, pending := rest }) ∧
    (s.pending = [] →
      step s = exec (decode s.stage.mode)
        { s with
          ins := { rst := false, cfgMode := s.stage.mode, inSample := Config.freeSample s.draws }
          draws := s.draws + 1 })

/-- A word placed as the next instruction is run by the next step (the model's choice, log 8 and log 16). -/
def Obligations.FetchWordRunsTableInstruction : Prop :=
  ∀ (s : State) (nbits w : Nat), s.cfg.wf = true →
    ∃ i, decodeTableWord nbits w = some i ∧
      step (s.withFetchWord nbits w) =
        exec i { s with
          stage := { s.stage with mode := modeField w }
          ins := { rst := false, cfgMode := modeField w, inSample := s.ins.inSample } }

/-- R80: the encoded form of a stream program. -/
def Obligations.StreamProgramEncoding : Prop :=
  ∀ prog : StreamProgram,
    prog.edges.length = 1 + prog.feed.length + prog.flush ∧
    (∃ e rest, prog.edges = e :: rest ∧ e.rst = true ∧ e.cfgMode = encode prog.mode) ∧
    (∀ n, n < prog.feed.length →
      prog.edges[n + 1]? = some { rst := false, cfgMode := encode prog.mode, inSample := prog.feed.getD n 0 }) ∧
    (∀ n, n < prog.flush →
      prog.edges[1 + prog.feed.length + n]? = some { rst := false, cfgMode := encode prog.mode, inSample := 0 })

/-! ### Reset and configuration -/

/-- R180: a reset edge checks the configuration; where it is refused there is no state, and otherwise every
element has the construction value, whatever state came before and whatever `in_sample` carries. -/
def Obligations.ResetEdgeConstructs : Prop :=
  ∀ (s : State) (e : Edge) (rest : List Edge), s.pending = e :: rest → e.rst = true →
    ((∃ r, refusalCondition r s.cfg e.cfgMode) → ∃ r, step s = .refused r) ∧
    ((¬ ∃ r, refusalCondition r s.cfg e.cfgMode) →
      ∃ t, step s = .next t ∧ t.stage.mode = e.cfgMode ∧ t.cfg = s.cfg ∧ t.pending = rest ∧
        ∀ f ∈ [t.stage.fS, t.stage.fSH, t.stage.fG],
          (∀ i p, i < 2 → p < s.cfg.w → memRead s.cfg f.rh.rows i p = s.cfg.initFill) ∧
          f.rh.cursor = 0 ∧ f.rh.completed = 0 ∧
          (∀ i j : Fin 3, f.sw.win[i][j] = s.cfg.winInit) ∧ f.xCnt = 0 ∧ f.yCnt = 0)

/-- R182: on a reset edge `out_valid` = 0 and `out_sample` is a draw. That the draw is the next free value of
`Config.freeSample`, and that one more is counted as used, is the model's choice (log 5). -/
def Obligations.ResetEdgeOutputs : Prop :=
  ∀ (s : State) (e : Edge) (rest : List Edge), s.pending = e :: rest → e.rst = true →
    (¬ ∃ r, refusalCondition r s.cfg e.cfgMode) →
    ∃ t, step s = .next t ∧ t.out.valid = false ∧ t.out.sample = Config.freeSample s.draws ∧ t.draws = s.draws + 1

/-- R168: when `rst = 1` reset wins, and the `in_sample` of that edge is not consumed. -/
def Obligations.ResetIgnoresSample : Prop :=
  ∀ (s : State) (bits : ModeBits) (x y : Sample) (rest : List Edge) (t : State),
    step (s.listing (resetEdgeOf bits x :: rest)) = .next t →
    ∃ u, step (s.listing (resetEdgeOf bits y :: rest)) = .next u ∧
      u.stage = t.stage ∧ u.out = t.out ∧ u.pending = t.pending ∧ u.draws = t.draws

/-- R183 (the spec's own inference): consecutive reset edges act as one, and the last one's `cfg_mode` is the mode. -/
def Obligations.ConsecutiveResetsActAsOne : Prop :=
  ∀ (s : State) (a b : ModeBits) (x y : Sample), s.cfg.wf = true → (decode a).wf = true → (decode b).wf = true →
    ∃ t u, steps 2 (s.listing [resetEdgeOf a x, resetEdgeOf b y]) = .next t ∧
      step (s.listing [resetEdgeOf b y]) = .next u ∧
      t.stage = u.stage ∧ t.out.valid = u.out.valid ∧ t.stage.mode = b

/-- R162: a reset edge is refused exactly where a condition of the table holds, and the reason reported is one that
holds. -/
def Obligations.ConfigurationRefusals : Prop :=
  ∀ (s : State) (e : Edge) (rest : List Edge), s.pending = e :: rest → e.rst = true →
    (∀ r, step s = .refused r → refusalCondition r s.cfg e.cfgMode) ∧
    ((∃ r, step s = .refused r) ↔ ∃ r, refusalCondition r s.cfg e.cfgMode)

/-- Malformed parameters have no step, whatever the edge (60_exceptions.md R162; that a later edge is refused as well is
the model's reading, log 12). -/
def Obligations.MalformedConfigurationHasNoStep : Prop :=
  ∀ s : State, s.cfg.wf = false → ∃ r, step s = .refused r

/-- R163 and the refusal of R73: a reserved value is refused at the reset edge that samples it, and its row has no
step. -/
def Obligations.ReservedModesAreRefused : Prop :=
  (∀ (s : State) (e : Edge) (rest : List Edge), s.cfg.wf = true → s.pending = e :: rest → e.rst = true →
    (e.cfgMode = 0b101#3 ∨ e.cfgMode = 0b110#3 ∨ e.cfgMode = 0b111#3) → step s = .refused .reservedMode) ∧
  (∀ s : State, exec .reserved101 s = .refused .reservedMode ∧ exec .reserved110 s = .refused .reservedMode ∧
    exec .reserved111 s = .refused .reservedMode)

/-- A mid-stream mode change is refused (R164) with the reason R186 names. That it is an edge with `rst = 0` on which
`cfg_mode` differs from the mode, refused before its operation, is the model's reading (log 13). -/
def Obligations.ModeChangeMidStreamIsRefused : Prop :=
  ∀ (s : State) (e : Edge) (rest : List Edge), s.cfg.wf = true → s.pending = e :: rest → e.rst = false →
    e.cfgMode ≠ s.stage.mode → step s = .refused .modeChangeMidStream

/-- R74: a reset edge loads the mode register from `cfg_mode`, and no other edge changes it. The last clause, that an edge
with `rst = 0` on which `cfg_mode` differs from it is refused, is the model's reading of a mode change (log 13). -/
def Obligations.ModeChangesOnlyByReset : Prop :=
  ∀ s : State,
    (∀ t, step s = .next t →
      (s.present.ins.rst = true → t.stage.mode = s.present.ins.cfgMode) ∧
      (s.present.ins.rst = false → t.stage.mode = s.stage.mode)) ∧
    (s.present.ins.rst = false → s.present.ins.cfgMode ≠ s.stage.mode → ∃ r, step s = .refused r)

/-- R36: no operation writes the construction parameters. -/
def Obligations.ParametersAreNeverWritten : Prop :=
  ∀ s t : State, step s = .next t → t.cfg = s.cfg

/-! ### RowHistory and SlidingWindow, for every kernel size -/

/-- R100: the column a call returns, the rows it leaves, the cursor and the completed count. -/
def Obligations.RowHistoryAdvance : Prop :=
  ∀ (k : Nat) (prm : Params) (rh : RowHistory) (x : Sample), 1 ≤ k → rh.cursor < prm.w →
    Memory.wf prm.initFill rh.rows = true →
    ∃ (column : Vector Sample k) (rh' : RowHistory), rowHistoryAdvance k prm rh x = .ok (column, rh') ∧
      (∀ i, (h : i < k) → column[i] = if i + 1 < k then memRead prm rh.rows i rh.cursor else x) ∧
      (∀ i p, (h : i + 1 < k) → p < prm.w →
        memRead prm rh'.rows i p = if p = rh.cursor then column[i + 1] else memRead prm rh.rows i p) ∧
      rh'.cursor = (if rh.cursor + 1 = prm.w then 0 else rh.cursor + 1) ∧
      rh'.completed = (if rh.cursor + 1 = prm.w then min (rh.completed + 1) k else rh.completed)

/-- R101 and R24: the readiness predicate is `completed ≥ K−1`, the count never decreases and never passes K, and so
readiness, once true, stays true. -/
def Obligations.ReadinessIsMonotone : Prop :=
  ∀ (k : Nat) (prm : Params) (rh rh' : RowHistory) (x : Sample) (column : Vector Sample k),
    rowHistoryAdvance k prm rh x = .ok (column, rh') → rh.completed ≤ k →
    (rowHistoryReady k rh = true ↔ k - 1 ≤ rh.completed) ∧
    rh.completed ≤ rh'.completed ∧ rh'.completed ≤ k ∧
    (rowHistoryReady k rh = true → rowHistoryReady k rh' = true)

/-- The closed form of the columns (R102, the spec's own inference from R100 by induction) with the counters after the
stream (R29, R103, its inferences too): for every kernel size, row width, reset filling and stream. -/
def Obligations.RowHistoryColumnClosedForm : Prop :=
  ∀ (k : Nat) (prm : Params) (xs : List Sample), 1 ≤ k → 0 < prm.w →
    ∃ (columns : List (Vector Sample k)) (rh : RowHistory),
      rowHistoryFeed k prm (constructInst prm).rh xs = .ok (columns, rh) ∧ columns.length = xs.length ∧
      (∀ n i, (hn : n < columns.length) → (hi : i < k) →
        columns[n][i] = streamAt prm.initFill xs ((n : Int) - ((k : Int) - 1 - (i : Int)) * (prm.w : Int))) ∧
      rh.cursor = xs.length % prm.w ∧ rh.completed = min (xs.length / prm.w) k

/-- R110: each element takes its right neighbour's value, the last of each row the newest column's. -/
def Obligations.WindowShift : Prop :=
  ∀ (k : Nat) (sw : SlidingWindow k) (column : Vector Sample k) (i j : Fin k),
    (∀ h : j.val + 1 < k, (windowShift k sw column).win[i][j] = (sw.win[i])[j.val + 1]) ∧
    (j.val + 1 = k → (windowShift k sw column).win[i][j] = column[i])

/-- Column age (R112, the spec's own inference from R110), from any window: after a list of shifts, column j is the
column inserted K−1−j shifts before the last, or what the window held where there were fewer. -/
def Obligations.WindowColumnAge : Prop :=
  ∀ (k : Nat) (sw : SlidingWindow k) (columns : List (Vector Sample k)) (i j : Nat) (hi : i < k) (hj : j < k),
    (∀ h : j + columns.length < k, ((windowFeed k sw columns).win[i])[j] = (sw.win[i])[j + columns.length]) ∧
    (∀ h : k ≤ j + columns.length, ((windowFeed k sw columns).win[i])[j] = (columns[j + columns.length - k])[i])

/-! ### The reductions -/

/-- Smoothing is the floor of the unweighted sum over 9: with DIV by R126, with FIXED by R129 (the spec's own inference)
at RECIP9 = 7282 (the spec's choice, log 15). -/
def Obligations.SmoothingIsFloorOfMean : Prop :=
  ∀ (impl : SmoothImpl) (sw : Window),
    ((reduceSmooth impl sw).toNat : Int) = Kernel.apply smoothKernel sw / 9

/-- R127: Sharpening is `5·C − N − S − Wt − E` clamped to [0, 255]. -/
def Obligations.SharpeningIsClampedSum : Prop :=
  ∀ sw : Window,
    ((reduceSharpen sw).toNat : Int) =
      min 255 (max 0 (5 * Window.center sw - Window.north sw - Window.south sw - Window.west sw - Window.east sw)) ∧
    Kernel.apply sharpenKernel sw =
      5 * Window.center sw - Window.north sw - Window.south sw - Window.west sw - Window.east sw

/-- R128: GradientMagnitude is `min(255, |gx| + |gy|)` with gx and gy the two kernels applied to the window; the result is
an even number below 255, or 255. -/
def Obligations.GradientIsCappedMagnitude : Prop :=
  ∀ sw : Window,
    (reduceGradient sw).toNat =
      min 255 ((Kernel.apply gxKernel sw).natAbs + (Kernel.apply gyKernel sw).natAbs) ∧
    ((reduceGradient sw).toNat % 2 = 0 ∨ (reduceGradient sw).toNat = 255)

/-- The multipliers that meet the source's property are exactly 7282, 7283 and 7284 (R129, the spec's own inference). -/
def Obligations.FixedPointMultipliers : Prop :=
  ∀ c : Nat, (∀ s, s ≤ 2295 → fixedQuotient c s = s / 9) ↔ (c = 7282 ∨ c = 7283 ∨ c = 7284)

/-- A uniform window of c gives c, c and 0 (R130, the spec's own inference). -/
def Obligations.UniformWindows : Prop :=
  ∀ (c : Sample) (impl : SmoothImpl) (sw : Window), (∀ i j : Fin 3, sw.win[i][j] = c) →
    reduceSmooth impl sw = c ∧ reduceSharpen sw = c ∧ reduceGradient sw = 0

/-- Kernel orientation cannot be observed (R131, the spec's own inference): the flipped kernels give the sums the
reductions use, up to a sign that the gradient drops. -/
def Obligations.KernelOrientationIsUnobservable : Prop :=
  ∀ sw : Window,
    Kernel.apply (Kernel.flip smoothKernel) sw = Kernel.apply smoothKernel sw ∧
    Kernel.apply (Kernel.flip sharpenKernel) sw = Kernel.apply sharpenKernel sw ∧
    Kernel.apply (Kernel.flip gxKernel) sw = - Kernel.apply gxKernel sw ∧
    Kernel.apply (Kernel.flip gyKernel) sw = - Kernel.apply gyKernel sw ∧
    (reduceGradient sw).toNat =
      min 255 ((Kernel.apply (Kernel.flip gxKernel) sw).natAbs + (Kernel.apply (Kernel.flip gyKernel) sw).natAbs)

/-- The ranges of the intermediate values (R134, the spec's own inference). -/
def Obligations.IntermediateRanges : Prop :=
  ∀ sw : Window,
    smoothSum sw ≤ 2295 ∧ smoothSum sw * recip9 ≤ 16712190 ∧
    -1020 ≤ sharpenSum sw ∧ sharpenSum sw ≤ 1275 ∧
    -1020 ≤ gradX sw ∧ gradX sw ≤ 1020 ∧ -1020 ≤ gradY sw ∧ gradY sw ≤ 1020 ∧
    (gradX sw).natAbs + (gradY sw).natAbs ≤ 1530

/-! ### A filter instance -/

/-- R120, R121, R122 and R124: one call runs RowHistory, SlidingWindow, the instance's reduction of the shifted window,
the counters, and evaluates valid on what they leave. -/
def Obligations.FilterProcess : Prop :=
  ∀ (red : Reduction) (prm : Params) (f : FilterInst) (x : Sample), f.rh.cursor < prm.w →
    ∃ (column : Vector Sample 3) (rh : RowHistory) (r : Processed),
      rowHistoryAdvance 3 prm f.rh x = .ok (column, rh) ∧ filterProcess red prm f x = .ok r ∧
      r.inst.rh = rh ∧ r.inst.sw = windowShift 3 f.sw column ∧
      (red = .smoothing → r.sample = reduceSmooth prm.smoothImpl r.inst.sw) ∧
      (red = .sharpening → r.sample = reduceSharpen r.inst.sw) ∧
      (red = .gradientMagnitude → r.sample = reduceGradient r.inst.sw) ∧
      r.inst.xCnt = (if f.xCnt + 1 = prm.w then 0 else f.xCnt + 1) ∧
      r.inst.yCnt = (if f.xCnt + 1 = prm.w then f.yCnt + 1 else f.yCnt) ∧
      (r.valid = true ↔ 2 ≤ r.inst.rh.completed ∧ 2 ≤ r.inst.yCnt)

/-- The counters after m calls since reset (R29, the spec's own inference). -/
def Obligations.InstanceCountersAfterCalls : Prop :=
  ∀ (red : Reduction) (prm : Params) (xs : List Sample), 0 < prm.w →
    ∃ (outs : List Output) (f : FilterInst), instFeed red prm (constructInst prm) xs = .ok (outs, f) ∧
      f.xCnt = xs.length % prm.w ∧ f.rh.cursor = xs.length % prm.w ∧ f.yCnt = xs.length / prm.w ∧
      f.rh.completed = min (xs.length / prm.w) 3

/-- The window and the outputs of an instance in closed form (R113 and R125, the spec's own inferences): after call n the
window holds the samples fed (2−j) + (2−i)·W calls before, every output is the reduction of that window, and a call is
valid exactly from 2W − 1 on. -/
def Obligations.InstanceOutputClosedForm : Prop :=
  ∀ (red : Reduction) (prm : Params) (xs : List Sample), 3 ≤ prm.w →
    ∃ (outs : List Output) (f : FilterInst), instFeed red prm (constructInst prm) xs = .ok (outs, f) ∧
      outs.length = xs.length ∧ (xs ≠ [] → f.sw = windowAt prm xs (xs.length - 1)) ∧
      ∀ n, (hn : n < outs.length) →
        outs[n] = { sample := reduce red prm (windowAt prm xs n), valid := decide (2 * prm.w - 1 ≤ n) }

/-- A build that holds min(y_cnt, 2) cannot be told apart (R27 and D14 of the spec): called on the saturated state it
gives the same outputs, and saturating what it leaves gives the saturated state of the other. -/
def Obligations.SaturatedRowCountIsEquivalent : Prop :=
  ∀ (red : Reduction) (prm : Params) (f : FilterInst) (x : Sample) (r : Processed),
    filterProcess red prm f x = .ok r →
    ∃ r', filterProcess red prm { f with yCnt := min f.yCnt 2 } x = .ok r' ∧
      r'.sample = r.sample ∧ r'.valid = r.valid ∧
      { r'.inst with yCnt := min r'.inst.yCnt 2 } = { r.inst with yCnt := min r.inst.yCnt 2 }

/-! ### The operations of the Stage -/

/-- R141: NONE returns the input, always valid, and touches no filter state. -/
def Obligations.NonePassesThrough : Prop :=
  ∀ s : State, ∃ t, exec .bypass s = .next t ∧
    t.out = { sample := s.ins.inSample, valid := true } ∧ t.stage = s.stage ∧
    t.cfg = s.cfg ∧ t.ins = s.ins ∧ t.pending = s.pending ∧ t.draws = s.draws

/-- R142, R143 and R144: SMOOTH, SHARPEN and GRADIENT complete wherever their instance's cursor is in range, return what
that one instance returns, and change nothing else. -/
def Obligations.FilterModesDelegate : Prop :=
  (∀ s : State, s.stage.fS.rh.cursor < s.cfg.w →
    ∃ r, filterProcess .smoothing s.cfg s.stage.fS s.ins.inSample = .ok r ∧
      exec .smooth s = .next { s with
        stage := { s.stage with fS := r.inst }, out := { sample := r.sample, valid := r.valid } }) ∧
  (∀ s : State, s.stage.fSH.rh.cursor < s.cfg.w →
    ∃ r, filterProcess .sharpening s.cfg s.stage.fSH s.ins.inSample = .ok r ∧
      exec .sharpen s = .next { s with
        stage := { s.stage with fSH := r.inst }, out := { sample := r.sample, valid := r.valid } }) ∧
  (∀ s : State, s.stage.fG.rh.cursor < s.cfg.w →
    ∃ r, filterProcess .gradientMagnitude s.cfg s.stage.fG s.ins.inSample = .ok r ∧
      exec .gradient s = .next { s with
        stage := { s.stage with fG := r.inst }, out := { sample := r.sample, valid := r.valid } })

/-- R145: CHAIN feeds F_S on every cycle; where F_S is not valid it calls nothing more and returns a draw with
`out_valid` = 0; where it is, F_G is fed F_S's sample and gives the output, valid where both are. That the draw is the
next free value of `Config.freeSample`, and that one more is counted as used, is the model's choice (log 5). -/
def Obligations.ChainFeedsGradientOnValid : Prop :=
  ∀ s : State, s.stage.fS.rh.cursor < s.cfg.w →
    ∃ rS, filterProcess .smoothing s.cfg s.stage.fS s.ins.inSample = .ok rS ∧
      (rS.valid = false →
        exec .chain s = .next { s with
          stage := { s.stage with fS := rS.inst }
          out := { sample := Config.freeSample s.draws, valid := false }
          draws := s.draws + 1 }) ∧
      (rS.valid = true → s.stage.fG.rh.cursor < s.cfg.w →
        ∃ rG, filterProcess .gradientMagnitude s.cfg s.stage.fG rS.sample = .ok rG ∧
          exec .chain s = .next { s with
            stage := { s.stage with fS := rS.inst, fG := rG.inst }
            out := { sample := rG.sample, valid := rS.valid && rG.valid } })

/-- R148: which instances each mode leaves untouched on a cycle, and that no operation changes the mode, the parameters,
the input ports or the edges to come. -/
def Obligations.OperationsFrame : Prop :=
  ∀ (i : Instr) (s t : State), exec i s = .next t →
    t.stage.mode = s.stage.mode ∧ t.cfg = s.cfg ∧ t.ins = s.ins ∧ t.pending = s.pending ∧
    (i ≠ .smooth → i ≠ .chain → t.stage.fS = s.stage.fS) ∧
    (i ≠ .sharpen → t.stage.fSH = s.stage.fSH) ∧
    (i ≠ .gradient → i ≠ .chain → t.stage.fG = s.stage.fG) ∧
    (i = .chain → filterValid t.stage.fS = false → t.stage.fG = s.stage.fG) ∧
    (i ≠ .chain → t.draws = s.draws)

/-- R51 and R52 on the fed instance of every storing operation, in every byte: the two bytes at its cursor take the old
row 1 and the instance's input, and every other byte of its storage is kept. Of an instance that is not fed every byte
is kept (`OperationsFrame`). -/
def Obligations.RowStorageFrame : Prop :=
  ∀ (red : Reduction) (prm : Params) (f : FilterInst) (x : Sample) (r : Processed),
    Memory.wf prm.initFill f.rh.rows = true → filterProcess red prm f x = .ok r →
    (∀ a, a ≠ rowAddr prm 0 f.rh.cursor → a ≠ rowAddr prm 1 f.rh.cursor →
      Memory.read prm.initFill r.inst.rh.rows a = Memory.read prm.initFill f.rh.rows a) ∧
    Memory.read prm.initFill r.inst.rh.rows (rowAddr prm 0 f.rh.cursor) =
      Memory.read prm.initFill f.rh.rows (rowAddr prm 1 f.rh.cursor) ∧
    Memory.read prm.initFill r.inst.rh.rows (rowAddr prm 1 f.rh.cursor) = x

/-- R30 and R37: what a mode shows on the ports, and the state of the instances it feeds, do not depend on the instances
it does not feed. -/
def Obligations.OutputsIgnoreOtherInstances : Prop :=
  ∀ (s : State) (a b : FilterInst),
    (∀ t, exec .smooth s = .next t →
      ∃ u, exec .smooth { s with stage := { s.stage with fSH := a, fG := b } } = .next u ∧
        u.out = t.out ∧ u.stage.fS = t.stage.fS) ∧
    (∀ t, exec .sharpen s = .next t →
      ∃ u, exec .sharpen { s with stage := { s.stage with fS := a, fG := b } } = .next u ∧
        u.out = t.out ∧ u.stage.fSH = t.stage.fSH) ∧
    (∀ t, exec .gradient s = .next t →
      ∃ u, exec .gradient { s with stage := { s.stage with fS := a, fSH := b } } = .next u ∧
        u.out = t.out ∧ u.stage.fG = t.stage.fG) ∧
    (∀ t, exec .chain s = .next t →
      ∃ u, exec .chain { s with stage := { s.stage with fSH := a } } = .next u ∧
        u.out = t.out ∧ u.stage.fS = t.stage.fS ∧ u.stage.fG = t.stage.fG)

/-! ### The whole machine -/

/-- The state after reset meets the invariant. -/
def Obligations.ResetStateMeetsInvariant : Prop := State.Inv State.reset

/-- The invariant of a configured machine (R29, the spec's own inference, with R23, R24, R31 and the canonical form of the
storage): every step from every state that meets it leads to one that does. -/
def Obligations.StepKeepsInvariant : Prop :=
  ∀ s t : State, s.Inv → step s = .next t → t.Inv

/-- R160 and R56: no cycle of a configured machine can fail. -/
def Obligations.NoRuntimeFault : Prop :=
  ∀ s : State, s.Inv → ∀ e, step s ≠ .fault e

/-- R166 (the spec's own inference): a configured state has a successor for each input sample, and for a reset to each
legal mode. -/
def Obligations.EveryConfiguredStateHasASuccessor : Prop :=
  ∀ s : State, s.Inv →
    (∀ (x : Sample) (rest : List Edge), ∃ t, step (s.listing (cycleEdgeOf s.stage.mode x :: rest)) = .next t) ∧
    (∀ (bits : ModeBits) (x : Sample) (rest : List Edge), (decode bits).wf = true →
      ∃ t, step (s.listing (resetEdgeOf bits x :: rest)) = .next t)

/-- Every legal operation completes in every configured state (60_exceptions.md R160: no cycle can fail; R166). -/
def Obligations.LegalOperationsComplete : Prop :=
  ∀ (i : Instr) (s : State), s.Inv → i.wf = true → ∃ t, exec i s = .next t

/-- R59: cycle n's output is determined by the inputs up to n; no later input changes an earlier output. -/
def Obligations.OutputsAreCausal : Prop :=
  ∀ (s : State) (es later later' : List Edge),
    trace es.length (s.listing (es ++ later)) = trace es.length (s.listing (es ++ later'))

/-- An instance the mode does not feed keeps its whole state for a whole run of cycles (R32, R148). -/
def Obligations.IdleInstancesKeepTheirState : Prop :=
  ∀ (xs : List Sample) (s t : State),
    steps xs.length (s.listing (xs.map (cycleEdgeOf s.stage.mode))) = .next t →
    (decode s.stage.mode ≠ .smooth → decode s.stage.mode ≠ .chain → t.stage.fS = s.stage.fS) ∧
    (decode s.stage.mode ≠ .sharpen → t.stage.fSH = s.stage.fSH) ∧
    (decode s.stage.mode ≠ .gradient → decode s.stage.mode ≠ .chain → t.stage.fG = s.stage.fG)

/-- `out_valid` is monotone until the next reset (R150, the spec's own inference). -/
def Obligations.OutValidIsMonotone : Prop :=
  ∀ s t u : State, s.Inv → s.present.ins.rst = false → t.present.ins.rst = false →
    step s = .next t → step t = .next u → t.out.valid = true → u.out.valid = true

/-- The startup latency of every mode (R195, R146 and R150, the spec's own inferences): after one reset edge and N cycles
from any state, `out_valid` is 0 on the reset edge and on the first L cycles and 1 on every later one, and max(0, N − L)
outputs are valid. -/
def Obligations.StartupLatency : Prop :=
  ∀ (s : State) (i : Instr) (xs : List Sample), s.cfg.wf = true → i.wf = true →
    (trace (xs.length + 1) (s.listing (streamEdges (encode i) xs))).map Output.valid =
      false :: (List.range xs.length).map (fun n => decide (startupLatency i s.cfg.w ≤ n)) ∧
    ((trace (xs.length + 1) (s.listing (streamEdges (encode i) xs))).filter Output.valid).length =
      xs.length - startupLatency i s.cfg.w

/-- Exactly W·H valid outputs appear in the first N cycles iff N = W·H + L (R189, the spec's own inference). -/
def Obligations.CyclesForAFullImage : Prop :=
  ∀ (s : State) (i : Instr) (xs : List Sample) (h : Nat), s.cfg.wf = true → i.wf = true → 0 < h →
    (((trace (xs.length + 1) (s.listing (streamEdges (encode i) xs))).filter Output.valid).length = s.cfg.w * h ↔
      xs.length = s.cfg.w * h + startupLatency i s.cfg.w)

/-- The data path of NONE and of the three filter modes from a reset edge in any state (R113, R141 to R144): on every
cycle the output is the sample itself, or the mode's reduction of the window of stream offsets. -/
def Obligations.StreamOutputClosedForm : Prop :=
  ∀ (s : State) (xs : List Sample) (n : Nat) (hn : n < xs.length), s.cfg.wf = true →
    (trace (xs.length + 1) (s.listing (streamEdges (encode .bypass) xs)))[n + 1]? =
      some { sample := xs[n], valid := true } ∧
    (trace (xs.length + 1) (s.listing (streamEdges (encode .smooth) xs)))[n + 1]? =
      some { sample := reduceSmooth s.cfg.smoothImpl (windowAt s.cfg xs n), valid := decide (2 * s.cfg.w - 1 ≤ n) } ∧
    (trace (xs.length + 1) (s.listing (streamEdges (encode .sharpen) xs)))[n + 1]? =
      some { sample := reduceSharpen (windowAt s.cfg xs n), valid := decide (2 * s.cfg.w - 1 ≤ n) } ∧
    (trace (xs.length + 1) (s.listing (streamEdges (encode .gradient) xs)))[n + 1]? =
      some { sample := reduceGradient (windowAt s.cfg xs n), valid := decide (2 * s.cfg.w - 1 ≤ n) }

/-- The data path of CHAIN (R147, R146, the spec's own inferences, and D10 for the fed cycles that are not yet valid):
from cycle 2W − 1 on the output is the gradient of the window of F_S's outputs counted from F_S's first valid one, and
it is valid exactly from cycle 4W − 2 on. -/
def Obligations.ChainOutputClosedForm : Prop :=
  ∀ (s : State) (xs : List Sample) (n : Nat), s.cfg.wf = true → n < xs.length → 2 * s.cfg.w - 1 ≤ n →
    (trace (xs.length + 1) (s.listing (streamEdges (encode .chain) xs)))[n + 1]? =
      some { sample := reduceGradient
               (windowAt s.cfg ((smoothedStream s.cfg xs).drop (2 * s.cfg.w - 1)) (n - (2 * s.cfg.w - 1)))
             valid := decide (4 * s.cfg.w - 2 ≤ n) }

/-- WIN_INIT never reaches a valid output (R116, the spec's own inference): in every mode, two runs from a reset edge on
the same stream, from any two states whose parameters differ in WIN_INIT only, show the same valid outputs. -/
def Obligations.WindowResetIsUnobservable : Prop :=
  ∀ (s u : State) (v : Sample) (i : Instr) (xs : List Sample) (n : Nat) (o : Output),
    s.cfg.wf = true → i.wf = true → u.cfg = { s.cfg with winInit := v } →
    (trace (xs.length + 1) (s.listing (streamEdges (encode i) xs)))[n]? = some o → o.valid = true →
    (trace (xs.length + 1) (u.listing (streamEdges (encode i) xs)))[n]? = some o

/-- INIT_FILL reaches no output of a filter mode from cycle 2W + 2 on, that is after the first three valid ones (R116,
R191, the spec's own inferences): there two such runs whose parameters differ in INIT_FILL only show the same outputs. -/
def Obligations.FilterModesIgnoreRowResetAfterThreeValid : Prop :=
  ∀ (s u : State) (v : Sample) (i : Instr) (xs : List Sample) (n : Nat),
    s.cfg.wf = true → (i = .smooth ∨ i = .sharpen ∨ i = .gradient) → u.cfg = { s.cfg with initFill := v } →
    2 * s.cfg.w + 2 ≤ n →
    (trace (xs.length + 1) (s.listing (streamEdges (encode i) xs)))[n + 1]? =
      (trace (xs.length + 1) (u.listing (streamEdges (encode i) xs)))[n + 1]?

/-- INIT_FILL reaches no output of CHAIN from cycle 4W + 4 on: F_S's first three valid outputs are F_G's first three inputs
(R191), and F_G's window has let go of them, and of its own INIT_FILL, after the first six valid outputs of CHAIN (R113,
R116, R147, the spec's own inferences). There two runs whose parameters differ in INIT_FILL only show the same outputs. -/
def Obligations.ChainIgnoresRowResetAfterSixValid : Prop :=
  ∀ (s u : State) (v : Sample) (xs : List Sample) (n : Nat),
    s.cfg.wf = true → u.cfg = { s.cfg with initFill := v } → 4 * s.cfg.w + 4 ≤ n →
    (trace (xs.length + 1) (s.listing (streamEdges (encode .chain) xs)))[n + 1]? =
      (trace (xs.length + 1) (u.listing (streamEdges (encode .chain) xs)))[n + 1]?
end

