-- ==== Sys2Proof/Laws/State.lean ====
section
/-! SUPPORT. One lemma for each field of State under each update of Machine/Ops.lean, and what the input ports hold after
`State.present`; all by rfl, so that no later proof unfolds a record update. -/

namespace Sys2Proof.Machine

/-! ### withFS -/

@[simp] theorem State.withFS_mode (s : State) (f : FilterInst) : (s.withFS f).stage.mode = s.stage.mode := rfl
@[simp] theorem State.withFS_fS (s : State) (f : FilterInst) : (s.withFS f).stage.fS = f := rfl
@[simp] theorem State.withFS_fSH (s : State) (f : FilterInst) : (s.withFS f).stage.fSH = s.stage.fSH := rfl
@[simp] theorem State.withFS_fG (s : State) (f : FilterInst) : (s.withFS f).stage.fG = s.stage.fG := rfl
@[simp] theorem State.withFS_ins (s : State) (f : FilterInst) : (s.withFS f).ins = s.ins := rfl
@[simp] theorem State.withFS_out (s : State) (f : FilterInst) : (s.withFS f).out = s.out := rfl
@[simp] theorem State.withFS_cfg (s : State) (f : FilterInst) : (s.withFS f).cfg = s.cfg := rfl
@[simp] theorem State.withFS_pending (s : State) (f : FilterInst) : (s.withFS f).pending = s.pending := rfl
@[simp] theorem State.withFS_draws (s : State) (f : FilterInst) : (s.withFS f).draws = s.draws := rfl

/-! ### withFSH -/

@[simp] theorem State.withFSH_mode (s : State) (f : FilterInst) : (s.withFSH f).stage.mode = s.stage.mode := rfl
@[simp] theorem State.withFSH_fS (s : State) (f : FilterInst) : (s.withFSH f).stage.fS = s.stage.fS := rfl
@[simp] theorem State.withFSH_fSH (s : State) (f : FilterInst) : (s.withFSH f).stage.fSH = f := rfl
@[simp] theorem State.withFSH_fG (s : State) (f : FilterInst) : (s.withFSH f).stage.fG = s.stage.fG := rfl
@[simp] theorem State.withFSH_ins (s : State) (f : FilterInst) : (s.withFSH f).ins = s.ins := rfl
@[simp] theorem State.withFSH_out (s : State) (f : FilterInst) : (s.withFSH f).out = s.out := rfl
@[simp] theorem State.withFSH_cfg (s : State) (f : FilterInst) : (s.withFSH f).cfg = s.cfg := rfl
@[simp] theorem State.withFSH_pending (s : State) (f : FilterInst) : (s.withFSH f).pending = s.pending := rfl
@[simp] theorem State.withFSH_draws (s : State) (f : FilterInst) : (s.withFSH f).draws = s.draws := rfl

/-! ### withFG -/

@[simp] theorem State.withFG_mode (s : State) (f : FilterInst) : (s.withFG f).stage.mode = s.stage.mode := rfl
@[simp] theorem State.withFG_fS (s : State) (f : FilterInst) : (s.withFG f).stage.fS = s.stage.fS := rfl
@[simp] theorem State.withFG_fSH (s : State) (f : FilterInst) : (s.withFG f).stage.fSH = s.stage.fSH := rfl
@[simp] theorem State.withFG_fG (s : State) (f : FilterInst) : (s.withFG f).stage.fG = f := rfl
@[simp] theorem State.withFG_ins (s : State) (f : FilterInst) : (s.withFG f).ins = s.ins := rfl
@[simp] theorem State.withFG_out (s : State) (f : FilterInst) : (s.withFG f).out = s.out := rfl
@[simp] theorem State.withFG_cfg (s : State) (f : FilterInst) : (s.withFG f).cfg = s.cfg := rfl
@[simp] theorem State.withFG_pending (s : State) (f : FilterInst) : (s.withFG f).pending = s.pending := rfl
@[simp] theorem State.withFG_draws (s : State) (f : FilterInst) : (s.withFG f).draws = s.draws := rfl

/-! ### drive -/

@[simp] theorem State.drive_stage (s : State) (o : Output) : (s.drive o).stage = s.stage := rfl
@[simp] theorem State.drive_ins (s : State) (o : Output) : (s.drive o).ins = s.ins := rfl
@[simp] theorem State.drive_out (s : State) (o : Output) : (s.drive o).out = o := rfl
@[simp] theorem State.drive_cfg (s : State) (o : Output) : (s.drive o).cfg = s.cfg := rfl
@[simp] theorem State.drive_pending (s : State) (o : Output) : (s.drive o).pending = s.pending := rfl
@[simp] theorem State.drive_draws (s : State) (o : Output) : (s.drive o).draws = s.draws := rfl

/-! ### driveDraw -/

@[simp] theorem State.driveDraw_stage (s : State) : (s.driveDraw).stage = s.stage := rfl
@[simp] theorem State.driveDraw_ins (s : State) : (s.driveDraw).ins = s.ins := rfl
@[simp] theorem State.driveDraw_out (s : State) : (s.driveDraw).out = { sample := Config.freeSample s.draws, valid := false } := rfl
@[simp] theorem State.driveDraw_cfg (s : State) : (s.driveDraw).cfg = s.cfg := rfl
@[simp] theorem State.driveDraw_pending (s : State) : (s.driveDraw).pending = s.pending := rfl
@[simp] theorem State.driveDraw_draws (s : State) : (s.driveDraw).draws = s.draws + 1 := rfl

/-! ### listing -/

@[simp] theorem State.listing_stage (s : State) (es : List Edge) : (s.listing es).stage = s.stage := rfl
@[simp] theorem State.listing_ins (s : State) (es : List Edge) : (s.listing es).ins = s.ins := rfl
@[simp] theorem State.listing_out (s : State) (es : List Edge) : (s.listing es).out = s.out := rfl
@[simp] theorem State.listing_cfg (s : State) (es : List Edge) : (s.listing es).cfg = s.cfg := rfl
@[simp] theorem State.listing_pending (s : State) (es : List Edge) : (s.listing es).pending = es := rfl
@[simp] theorem State.listing_draws (s : State) (es : List Edge) : (s.listing es).draws = s.draws := rfl

/-! ### load -/

@[simp] theorem State.load_stage (s : State) (prog : StreamProgram) : (s.load prog).stage = s.stage := rfl
@[simp] theorem State.load_ins (s : State) (prog : StreamProgram) : (s.load prog).ins = s.ins := rfl
@[simp] theorem State.load_out (s : State) (prog : StreamProgram) : (s.load prog).out = s.out := rfl
@[simp] theorem State.load_cfg (s : State) (prog : StreamProgram) : (s.load prog).cfg = { s.cfg with rowWidth := prog.width } := rfl
@[simp] theorem State.load_pending (s : State) (prog : StreamProgram) : (s.load prog).pending = prog.edges := rfl
@[simp] theorem State.load_draws (s : State) (prog : StreamProgram) : (s.load prog).draws = s.draws := rfl

/-! ### placeModeWord -/

@[simp] theorem State.placeModeWord_mode (s : State) (w : Nat) : (s.placeModeWord w).stage.mode = modeField w := rfl
@[simp] theorem State.placeModeWord_fS (s : State) (w : Nat) : (s.placeModeWord w).stage.fS = s.stage.fS := rfl
@[simp] theorem State.placeModeWord_fSH (s : State) (w : Nat) : (s.placeModeWord w).stage.fSH = s.stage.fSH := rfl
@[simp] theorem State.placeModeWord_fG (s : State) (w : Nat) : (s.placeModeWord w).stage.fG = s.stage.fG := rfl
@[simp] theorem State.placeModeWord_ins (s : State) (w : Nat) : (s.placeModeWord w).ins = s.ins := rfl
@[simp] theorem State.placeModeWord_out (s : State) (w : Nat) : (s.placeModeWord w).out = s.out := rfl
@[simp] theorem State.placeModeWord_cfg (s : State) (w : Nat) : (s.placeModeWord w).cfg = s.cfg := rfl
@[simp] theorem State.placeModeWord_pending (s : State) (w : Nat) : (s.placeModeWord w).pending = cycleEdgeOf (modeField w) s.ins.inSample :: s.pending := rfl
@[simp] theorem State.placeModeWord_draws (s : State) (w : Nat) : (s.placeModeWord w).draws = s.draws := rfl

/-! ### present -/

@[simp] theorem State.present_stage (s : State) : s.present.stage = s.stage := by
  unfold State.present; split <;> rfl

@[simp] theorem State.present_out (s : State) : s.present.out = s.out := by
  unfold State.present; split <;> rfl

@[simp] theorem State.present_cfg (s : State) : s.present.cfg = s.cfg := by
  unfold State.present; split <;> rfl

@[simp] theorem State.present_pending (s : State) : s.present.pending = s.pending.tail := by
  unfold State.present; split <;> simp_all

theorem State.present_cons (s : State) (e : Edge) (rest : List Edge) (h : s.pending = e :: rest) :
    s.present = { s with ins := e, pending := rest } := by
  unfold State.present; simp [h]

/-- A listed edge is driven as it is, and no free value is used. -/
@[simp] theorem State.present_listing_cons (s : State) (e : Edge) (rest : List Edge) :
    (s.listing (e :: rest)).present = { s with ins := e, pending := rest } := rfl

/-- Past the listed edges: no reset, no mode change, a free sample (log 4). -/
@[simp] theorem State.present_listing_nil (s : State) :
    (s.listing []).present =
      { s with
        ins := { rst := false, cfgMode := s.stage.mode, inSample := Config.freeSample s.draws }
        pending := []
        draws := s.draws + 1 } := rfl

end Sys2Proof.Machine
end

