-- ==== Sys2Proof/Laws/Memory.lean ====
section
/-! SUPPORT. The memory of one instance's row storage: a read after a write, the canonical form and the bound every write
keeps, and that memories in canonical form which read alike are equal. -/

namespace Sys2Proof.Machine

open Sys2Proof.Config (Params)

namespace Memory

@[simp] theorem read_nil (fill : Sample) (a : Nat) : Memory.read fill [] a = fill := rfl

@[simp] theorem wf_nil (fill : Sample) : Memory.wf fill [] = true := rfl

@[simp] theorem below_nil (size : Nat) : Memory.below size [] = true := rfl

theorem wfFrom_cons {fill : Sample} {lo a : Nat} {v : Sample} {m : Memory} :
    Memory.wfFrom fill lo ((a, v) :: m) = true ↔ lo ≤ a ∧ v ≠ fill ∧ Memory.wfFrom fill (a + 1) m = true := by
  simp [Memory.wfFrom, and_assoc]

/-- A smaller lower bound is met too. -/
theorem wfFrom_mono {fill : Sample} {m : Memory} {lo lo' : Nat} (hle : lo' ≤ lo) (h : Memory.wfFrom fill lo m = true) :
    Memory.wfFrom fill lo' m = true := by
  cases m with
  | nil => rfl
  | cons c m =>
    obtain ⟨a, v⟩ := c
    rw [wfFrom_cons] at h ⊢
    exact ⟨hle.trans h.1, h.2⟩

/-- Below its lower bound a memory lists nothing. -/
theorem read_of_lt {fill : Sample} {m : Memory} {lo a : Nat} (h : Memory.wfFrom fill lo m = true) (ha : a < lo) :
    Memory.read fill m a = fill := by
  induction m generalizing lo with
  | nil => rfl
  | cons c m ih =>
    obtain ⟨b, u⟩ := c
    rw [wfFrom_cons] at h
    have hne : b ≠ a := by omega
    simp only [Memory.read, hne, if_false]
    exact ih h.2.2 (by omega)

theorem wfFrom_write {fill : Sample} {m : Memory} {lo a : Nat} (v : Sample) (h : Memory.wfFrom fill lo m = true)
    (ha : lo ≤ a) : Memory.wfFrom fill lo (Memory.write fill m a v) = true := by
  induction m generalizing lo with
  | nil => by_cases hv : v = fill <;> simp [Memory.write, Memory.wfFrom, hv, ha]
  | cons c m ih =>
    obtain ⟨b, u⟩ := c
    have hc := wfFrom_cons.mp h
    unfold Memory.write
    split_ifs with hab hv heq hv
    · exact h
    · exact wfFrom_cons.mpr ⟨ha, hv, wfFrom_cons.mpr ⟨hab, hc.2⟩⟩
    · exact wfFrom_mono (by omega) hc.2.2
    · exact wfFrom_cons.mpr ⟨ha, hv, heq ▸ hc.2.2⟩
    · exact wfFrom_cons.mpr ⟨hc.1, hc.2.1, ih hc.2.2 (by omega)⟩

/-- A write keeps the canonical form. -/
theorem wf_write {fill : Sample} {m : Memory} (a : Nat) (v : Sample) (h : Memory.wf fill m = true) :
    Memory.wf fill (Memory.write fill m a v) = true :=
  wfFrom_write v h (Nat.zero_le a)

/-- Reading a memory that begins with an entry. -/
theorem read_cons (fill : Sample) (d : Nat) (u : Sample) (m : Memory) (a : Nat) :
    Memory.read fill ((d, u) :: m) a = if d = a then u else Memory.read fill m a := rfl

theorem read_write_from {fill : Sample} (a b : Nat) (v : Sample) :
    ∀ (m : Memory) (lo : Nat), Memory.wfFrom fill lo m = true →
      Memory.read fill (Memory.write fill m a v) b = if b = a then v else Memory.read fill m b
  | [], _, _ => by
    unfold Memory.write
    split_ifs with hv hb hb
    · rw [hv, read_nil]
    · rfl
    · rw [read_cons, if_pos hb.symm]
    · rw [read_cons, if_neg (Ne.symm hb)]
  | (d, u) :: m, lo, h => by
    have hc := wfFrom_cons.mp h
    have ih := read_write_from a b v m (d + 1) hc.2.2
    have hlow : ∀ x, x < d + 1 → Memory.read fill m x = fill := fun x hx => read_of_lt hc.2.2 hx
    unfold Memory.write
    by_cases hb : b = a
    · subst hb
      rw [if_pos rfl] at ih ⊢
      split_ifs with had hv heq hv
      · rw [read_cons, if_neg (by omega), hlow b (by omega), hv]
      · rw [read_cons, if_pos rfl]
      · rw [hlow b (by omega), hv]
      · rw [read_cons, if_pos rfl]
      · rw [read_cons, if_neg (Ne.symm heq), ih]
    · rw [if_neg hb] at ih ⊢
      split_ifs with had hv heq hv
      · rfl
      · rw [read_cons, if_neg (Ne.symm hb)]
      · rw [read_cons, if_neg (by omega)]
      · rw [read_cons, if_neg (Ne.symm hb), read_cons, if_neg (by omega)]
      · rw [read_cons, read_cons, ih]

/-- A read after a write, at any two addresses. -/
theorem read_write {fill : Sample} {m : Memory} (a b : Nat) (v : Sample) (h : Memory.wf fill m = true) :
    Memory.read fill (Memory.write fill m a v) b = if b = a then v else Memory.read fill m b :=
  read_write_from a b v m 0 h

theorem below_cons {size d : Nat} {u : Sample} {m : Memory} :
    Memory.below size ((d, u) :: m) = true ↔ d < size ∧ Memory.below size m = true := by
  simp [Memory.below]

/-- A write inside the bound keeps the bound. -/
theorem below_write {fill : Sample} {size : Nat} {m : Memory} {a : Nat} (v : Sample)
    (h : Memory.below size m = true) (ha : a < size) : Memory.below size (Memory.write fill m a v) = true := by
  induction m with
  | nil => unfold Memory.write; split_ifs <;> simp [below_cons, ha]
  | cons c m ih =>
    obtain ⟨b, u⟩ := c
    have h' := below_cons.mp h
    have ih := ih h'.2
    unfold Memory.write
    split_ifs <;> simp [below_cons, h', ha, ih]

/-- The canonical form is one for each content: memories that read alike are equal. -/
theorem eq_of_read_eq {fill : Sample} {m n : Memory} (hm : Memory.wf fill m = true) (hn : Memory.wf fill n = true)
    (h : ∀ a, Memory.read fill m a = Memory.read fill n a) : m = n := by
  have key : ∀ (m n : Memory) (lo : Nat), Memory.wfFrom fill lo m = true → Memory.wfFrom fill lo n = true →
      (∀ a, Memory.read fill m a = Memory.read fill n a) → m = n := by
    intro m
    induction m with
    | nil =>
      intro n lo _ hn h
      cases n with
      | nil => rfl
      | cons c n =>
        obtain ⟨b, u⟩ := c
        have hc := wfFrom_cons.mp hn
        exact absurd (by simpa [Memory.read] using (h b).symm) hc.2.1
    | cons c m ih =>
      obtain ⟨a, v⟩ := c
      intro n lo hm hn h
      have hc := wfFrom_cons.mp hm
      cases n with
      | nil => exact absurd (by simpa [Memory.read] using h a) hc.2.1
      | cons d n =>
        obtain ⟨b, u⟩ := d
        have hd := wfFrom_cons.mp hn
        have hab : a = b := by
          rcases Nat.lt_trichotomy a b with hlt | heq | hgt
          · have hr : Memory.read fill ((b, u) :: n) a = fill := read_of_lt (lo := b)
              (wfFrom_cons.mpr ⟨le_refl b, hd.2⟩) hlt
            exact absurd (by simpa [Memory.read] using (h a).trans hr) hc.2.1
          · exact heq
          · have hr : Memory.read fill ((a, v) :: m) b = fill := read_of_lt (lo := a)
              (wfFrom_cons.mpr ⟨le_refl a, hc.2⟩) hgt
            exact absurd (by simpa [Memory.read] using (h b).symm.trans hr) hd.2.1
        subst hab
        have hvu : v = u := by simpa [Memory.read] using h a
        subst hvu
        have htail : m = n := by
          apply ih n (a + 1) hc.2.2 hd.2.2
          intro x
          by_cases hx : x = a
          · subst hx
            rw [read_of_lt hc.2.2 (Nat.lt_succ_self _), read_of_lt hd.2.2 (Nat.lt_succ_self _)]
          · have hne : a ≠ x := fun e => hx e.symm
            simpa [Memory.read, hne] using h x
        rw [htail]
  exact key m n 0 hm hn h

end Memory

/-- Two addresses of the row storage have one key only where they are the same address. -/
theorem rowAddr_inj {prm : Params} {i p i' p' : Nat} (hp : p < prm.w) (hp' : p' < prm.w) :
    rowAddr prm i p = rowAddr prm i' p' ↔ i = i' ∧ p = p' := by
  constructor
  · intro h
    have e : i * prm.w + p = i' * prm.w + p' := h
    have hi : i = i' := by
      have h1 : (i * prm.w + p) / prm.w = i := by
        rw [Nat.mul_comm, Nat.mul_add_div (by omega), Nat.div_eq_of_lt hp, Nat.add_zero]
      have h2 : (i' * prm.w + p') / prm.w = i' := by
        rw [Nat.mul_comm, Nat.mul_add_div (by omega), Nat.div_eq_of_lt hp', Nat.add_zero]
      rw [← h1, ← h2, e]
    subst hi
    exact ⟨rfl, by omega⟩
  · rintro ⟨rfl, rfl⟩
    rfl

/-- `MemRead` after `MemWrite` (R50). -/
theorem memRead_memWrite {prm : Params} {m : Memory} {i p i' p' : Nat} (v : Sample)
    (h : Memory.wf prm.initFill m = true) (hp : p < prm.w) (hp' : p' < prm.w) :
    memRead prm (memWrite prm m i p v) i' p' = if i' = i ∧ p' = p then v else memRead prm m i' p' := by
  have hk : (rowAddr prm i' p' = rowAddr prm i p) ↔ i' = i ∧ p' = p := rowAddr_inj hp' hp
  simp [memRead, memWrite, Memory.read_write _ _ _ h, hk]

/-- `MemWrite` keeps the canonical form. -/
theorem wf_memWrite {prm : Params} {m : Memory} (i p : Nat) (v : Sample) (h : Memory.wf prm.initFill m = true) :
    Memory.wf prm.initFill (memWrite prm m i p v) = true :=
  Memory.wf_write _ _ h

/-- Storing a column keeps the canonical form. -/
theorem wf_storeColumn {prm : Params} {p : Nat} (vs : List Sample) (i : Nat) {m : Memory}
    (h : Memory.wf prm.initFill m = true) : Memory.wf prm.initFill (storeColumn prm p i vs m) = true := by
  induction vs generalizing i m with
  | nil => exact h
  | cons v vs ih => exact ih (i + 1) (wf_memWrite i p v h)

/-- Storing a column of `n` rows keeps the bound `n` rows give. -/
theorem below_storeColumn {prm : Params} {p size : Nat} (hp : p < prm.w) (vs : List Sample) (i : Nat) {m : Memory}
    (h : Memory.below size m = true) (hs : (i + vs.length) * prm.w ≤ size) :
    Memory.below size (storeColumn prm p i vs m) = true := by
  induction vs generalizing i m with
  | nil => exact h
  | cons v vs ih =>
    have hlen : (i + 1 + vs.length) * prm.w ≤ size := by
      have e : i + 1 + vs.length = i + (v :: vs).length := by simp; omega
      rw [e]; exact hs
    refine ih (i + 1) (Memory.below_write v h ?_) hlen
    have h1 : (i + 1) * prm.w ≤ (i + 1 + vs.length) * prm.w := Nat.mul_le_mul_right _ (by omega)
    have h2 : (i + 1) * prm.w = i * prm.w + prm.w := by ring
    unfold rowAddr
    omega

/-- What a stored column leaves at every address. -/
theorem memRead_storeColumn {prm : Params} {p i' p' : Nat} (hp : p < prm.w) (hp' : p' < prm.w) (vs : List Sample)
    (i : Nat) {m : Memory} (h : Memory.wf prm.initFill m = true) :
    memRead prm (storeColumn prm p i vs m) i' p' =
      if p' = p ∧ i ≤ i' ∧ i' < i + vs.length then vs.getD (i' - i) 0 else memRead prm m i' p' := by
  induction vs generalizing i m with
  | nil =>
    have hno : ¬ (p' = p ∧ i ≤ i' ∧ i' < i + ([] : List Sample).length) := by simp only [List.length_nil]; omega
    rw [if_neg hno]
    rfl
  | cons v vs ih =>
    have e : storeColumn prm p i (v :: vs) m = storeColumn prm p (i + 1) vs (memWrite prm m i p v) := rfl
    rw [e, ih (i + 1) (wf_memWrite i p v h), memRead_memWrite v h hp hp']
    by_cases hpp : p' = p
    · rcases Nat.lt_trichotomy i' i with hlt | heq | hgt
      · have a1 : ¬ (i + 1 ≤ i') := by omega
        have a2 : ¬ (i ≤ i') := by omega
        have a3 : i' ≠ i := by omega
        simp [hpp, a1, a2, a3]
      · subst heq
        simp [hpp]
      · have a1 : i + 1 ≤ i' := by omega
        have a2 : i ≤ i' := by omega
        have a3 : i' ≠ i := by omega
        have a4 : i' - i = (i' - (i + 1)) + 1 := by omega
        have a5 : (i' < i + 1 + vs.length) ↔ i' < i + (vs.length + 1) := by omega
        simp [hpp, a1, a2, a3, a4, a5]
    · simp [hpp]

end Sys2Proof.Machine
end

