-- ==== Sys2Proof/Laws/RowHistory.lean ====
section
/-! SUPPORT. What RowHistory.advance and SlidingWindow.shift do, for any kernel size: when the call succeeds, the column it
returns, every stored element it leaves, the counters; every element of the shifted window. -/

namespace Sys2Proof.Machine

open Sys2Proof.Config (Params)

/-- A call succeeds exactly where the cursor is in range, and then returns and leaves this. -/
theorem rowHistoryAdvance_ok {k : Nat} {prm : Params} {rh : RowHistory} {x : Sample} (h : rh.cursor < prm.w) :
    rowHistoryAdvance k prm rh x =
      .ok (rowHistoryColumn k prm rh x,
        { rows := rowHistoryStored k prm rh x
          cursor := cursorNext prm rh.cursor
          completed := completedNext k prm rh }) := by
  simp [rowHistoryAdvance, h]

/-- A call whose cursor is out of range faults. -/
theorem rowHistoryAdvance_error {k : Nat} {prm : Params} {rh : RowHistory} {x : Sample} (h : ¬ rh.cursor < prm.w) :
    rowHistoryAdvance k prm rh x = .error .rowPositionOutsideStorage := by
  simp [rowHistoryAdvance, h]

/-- Element i of the column. -/
@[simp] theorem rowHistoryColumn_get {k : Nat} (prm : Params) (rh : RowHistory) (x : Sample) (i : Nat) (hi : i < k) :
    (rowHistoryColumn k prm rh x)[i] = if i + 1 < k then memRead prm rh.rows i rh.cursor else x := by
  simp [rowHistoryColumn]

theorem rowHistoryColumn_length {k : Nat} (prm : Params) (rh : RowHistory) (x : Sample) :
    (rowHistoryColumn k prm rh x).toList.tail.length = k - 1 := by
  simp

/-- What a call leaves at every address: row i at the cursor takes the column's element i + 1, all else is kept. -/
theorem memRead_rowHistoryStored {k : Nat} {prm : Params} {rh : RowHistory} {x : Sample} {i p : Nat}
    (hc : rh.cursor < prm.w) (hp : p < prm.w) (h : Memory.wf prm.initFill rh.rows = true) :
    memRead prm (rowHistoryStored k prm rh x) i p =
      if p = rh.cursor ∧ i + 1 < k then
        (if i + 2 < k then memRead prm rh.rows (i + 1) rh.cursor else x)
      else memRead prm rh.rows i p := by
  unfold rowHistoryStored
  rw [memRead_storeColumn hc hp _ _ h, rowHistoryColumn_length]
  have hiff : (p = rh.cursor ∧ 0 ≤ i ∧ i < 0 + (k - 1)) ↔ (p = rh.cursor ∧ i + 1 < k) := by omega
  rw [if_congr hiff rfl rfl]
  by_cases hi : p = rh.cursor ∧ i + 1 < k
  · rw [if_pos hi, if_pos hi]
    have hlen : i - 0 < (rowHistoryColumn k prm rh x).toList.tail.length := by
      rw [rowHistoryColumn_length]; omega
    rw [List.getD_eq_getElem _ _ hlen, List.getElem_tail, Vector.getElem_toList, rowHistoryColumn_get]
    rfl
  · rw [if_neg hi, if_neg hi]

/-- A call keeps the canonical form. -/
theorem wf_rowHistoryStored {k : Nat} {prm : Params} {rh : RowHistory} (x : Sample)
    (h : Memory.wf prm.initFill rh.rows = true) : Memory.wf prm.initFill (rowHistoryStored k prm rh x) = true :=
  wf_storeColumn _ _ h

/-- A call lists no address outside the K − 1 rows. -/
theorem below_rowHistoryStored {k : Nat} {prm : Params} {rh : RowHistory} (x : Sample) (hc : rh.cursor < prm.w)
    (h : Memory.below ((k - 1) * prm.w) rh.rows = true) :
    Memory.below ((k - 1) * prm.w) (rowHistoryStored k prm rh x) = true := by
  refine below_storeColumn hc _ _ h ?_
  rw [rowHistoryColumn_length]
  simp

/-- The cursor stays in range. -/
theorem cursorNext_lt {prm : Params} {c : Nat} (h : c < prm.w) : cursorNext prm c < prm.w := by
  unfold cursorNext; split <;> omega

/-- Element (i, j) of a shifted window. -/
theorem windowShift_get {k : Nat} (sw : SlidingWindow k) (column : Vector Sample k) (i j : Nat) (hi : i < k) (hj : j < k) :
    ((windowShift k sw column).win[i])[j] =
      if h : j + 1 < k then (sw.win[i])[j + 1] else column[i] := by
  simp [windowShift]

end Sys2Proof.Machine
end

