-- ==== Sys2Proof/Laws/Filter.lean ====
section
/-! SUPPORT. What one call of a filter instance does (42_filters.md R120): when it succeeds and what it leaves, and that it
keeps the instance's invariant; bounds of the sums the reductions use. -/

namespace Sys2Proof.Machine

open Sys2Proof.Config (Params)

/-- The instance a successful call leaves. -/
def instAfter (prm : Params) (f : FilterInst) (x : Sample) : FilterInst where
  rh :=
    { rows := rowHistoryStored 3 prm f.rh x
      cursor := cursorNext prm f.rh.cursor
      completed := completedNext 3 prm f.rh }
  sw := windowShift 3 f.sw (rowHistoryColumn 3 prm f.rh x)
  xCnt := xCntNext prm f
  yCnt := yCntNext prm f

/-- A call succeeds exactly where the cursor is in range, and then returns and leaves this. -/
theorem filterProcess_ok {red : Reduction} {prm : Params} {f : FilterInst} {x : Sample} (h : f.rh.cursor < prm.w) :
    filterProcess red prm f x =
      .ok { sample := reduce red prm (instAfter prm f x).sw
            valid := filterValid (instAfter prm f x)
            inst := instAfter prm f x } := by
  simp [filterProcess, rowHistoryAdvance_ok h, instAfter]

theorem filterProcess_error {red : Reduction} {prm : Params} {f : FilterInst} {x : Sample} (h : ¬ f.rh.cursor < prm.w) :
    filterProcess red prm f x = .error .rowPositionOutsideStorage := by
  simp [filterProcess, rowHistoryAdvance_error h]

/-- Inversion: a call that succeeds had its cursor in range. -/
theorem filterProcess_cases {red : Reduction} {prm : Params} {f : FilterInst} {x : Sample} {r : Processed}
    (h : filterProcess red prm f x = .ok r) :
    f.rh.cursor < prm.w ∧ r.sample = reduce red prm (instAfter prm f x).sw ∧
      r.valid = filterValid (instAfter prm f x) ∧ r.inst = instAfter prm f x := by
  by_cases hc : f.rh.cursor < prm.w
  · rw [filterProcess_ok hc] at h
    cases h
    exact ⟨hc, rfl, rfl, rfl⟩
  · rw [filterProcess_error hc] at h
    cases h

/-- A call keeps the instance's invariant. -/
theorem instAfter_inv {prm : Params} {f : FilterInst} (x : Sample) (h : f.Inv prm) : (instAfter prm f x).Inv prm := by
  obtain ⟨hc, hx, hy, hwf, hb⟩ := h
  refine ⟨cursorNext_lt hc, ?_, ?_, wf_rowHistoryStored x hwf, below_rowHistoryStored x hc hb⟩
  · simp [instAfter, xCntNext, cursorNext, hx]
  · simp only [instAfter, completedNext, yCntNext, hx]
    split <;> omega

/-- Valid, as a statement about the counters (R122). -/
theorem filterValid_iff {f : FilterInst} : filterValid f = true ↔ 2 ≤ f.rh.completed ∧ 2 ≤ f.yCnt := by
  simp [filterValid, rowHistoryReady, kernelRadius, Nat.lt_iff_add_one_le]

/-- A valid instance stays valid: neither count decreases below 2 (R125). -/
theorem filterValid_instAfter {prm : Params} {f : FilterInst} (x : Sample) (h : filterValid f = true) :
    filterValid (instAfter prm f x) = true := by
  rw [filterValid_iff] at h ⊢
  simp only [instAfter, completedNext, yCntNext]
  constructor <;> split <;> omega

/-- The construction state meets the invariant. -/
theorem constructInst_inv {prm : Params} (h : 0 < prm.w) : (constructInst prm).Inv prm := by
  refine ⟨h, rfl, rfl, ?_, ?_⟩ <;> simp [constructInst]

/-- State.reset's instances are the construction state. -/
theorem fresh_eq_constructInst (prm : Params) : FilterInst.fresh prm = constructInst prm := rfl

/-- A cell is in [0, 255]. -/
theorem Window.cell_bounds (sw : Window) (i j : Fin 3) : 0 ≤ Window.cell sw i j ∧ Window.cell sw i j ≤ 255 := by
  have h := (sw.win[i][j]).isLt
  unfold Window.cell
  omega

theorem toNat_sampleOfNat {n : Nat} (h : n ≤ 255) : (sampleOfNat n).toNat = n := by
  simp [sampleOfNat]
  omega

end Sys2Proof.Machine
end

