-- ==== Sys2Proof/Laws/PerInstr.lean ====
section
/-! SUPPORT. The family of statements made once for each constructor of Instr: the mode value of an operation decodes to
it, and is one of 0 to 4 exactly where the operation is a legal mode (10_state.md R31, 30_encoding.md R72, R73). -/

namespace Sys2Proof.Laws.ModeValue

/-- The operation's mode value decodes to it, and the value is at most 4 exactly where the operation is legal. -/
def Statement (i : Instr) : Prop := decode (encode i) = i ∧ (i.wf = true ↔ (encode i).toNat ≤ 4)

theorem bypass : Statement .bypass := by unfold Statement; decide

theorem smooth : Statement .smooth := by unfold Statement; decide

theorem sharpen : Statement .sharpen := by unfold Statement; decide

theorem gradient : Statement .gradient := by unfold Statement; decide

theorem chain : Statement .chain := by unfold Statement; decide

theorem reserved101 : Statement .reserved101 := by unfold Statement; decide

theorem reserved110 : Statement .reserved110 := by unfold Statement; decide

theorem reserved111 : Statement .reserved111 := by unfold Statement; decide

end Sys2Proof.Laws.ModeValue
end

