-- ==== Sys2Proof/Laws/Step.lean ====
section
/-! SUPPORT. What a step can do, said once: the refusals, each meaning's next state, and the inversion of a step. -/

namespace Sys2Proof.Machine

open Sys2Proof.Config (Params)

/-- The parameter check refuses exactly the malformed parameters. -/
theorem paramsRefusal_eq_none {prm : Params} : paramsRefusal prm = none ↔ prm.wf = true := by
  obtain ⟨k, w, hgt, m, im, f, wi⟩ := prm
  simp only [paramsRefusal, Config.Params.wf, Config.Params.widthPositive, Config.Params.heightPositive,
    Config.Params.kernelOdd, Config.Params.kernelThree, Config.Params.kernelFitsRow, Config.Params.widthFits,
    Bool.and_eq_true, decide_eq_true_eq]
  cases hgt with
  | none =>
    simp only [Option.any_none, Bool.false_eq_true, if_false]
    split_ifs <;> simp <;> omega
  | some h =>
    simp only [Option.any_some, decide_eq_true_eq]
    split_ifs <;> simp <;> omega

/-- What well-formed parameters say of W as a number. -/
theorem three_le_w {prm : Params} (h : prm.wf = true) : 3 ≤ prm.w := by
  simp only [Config.Params.wf, Config.Params.widthPositive, Config.Params.kernelThree, Config.Params.kernelFitsRow,
    Bool.and_eq_true, decide_eq_true_eq] at h
  unfold Config.Params.w
  omega

/-- A mode value is reserved exactly where the operation it selects is. -/
theorem modeReserved_eq (bits : ModeBits) : modeReserved bits = !(decode bits).wf := by
  revert bits; decide

/-- A reset edge that is not refused. -/
theorem resetEdge_next {s : State} (hp : s.cfg.wf = true) (hm : (decode s.ins.cfgMode).wf = true) :
    resetEdge s = .next (State.driveDraw { s with stage := constructStage s.cfg s.ins.cfgMode }) := by
  simp [resetEdge, configRefusal, paramsRefusal_eq_none.mpr hp, modeReserved_eq, hm]

/-- Inversion of a reset edge. -/
theorem resetEdge_cases {s t : State} (h : resetEdge s = .next t) :
    s.cfg.wf = true ∧ (decode s.ins.cfgMode).wf = true ∧
      t = State.driveDraw { s with stage := constructStage s.cfg s.ins.cfgMode } := by
  unfold resetEdge configRefusal at h
  cases hp : paramsRefusal s.cfg with
  | some r => simp [hp] at h
  | none =>
    by_cases hm : modeReserved s.ins.cfgMode = true
    · simp [hp, hm] at h
    · refine ⟨paramsRefusal_eq_none.mp hp, ?_, ?_⟩
      · simpa [modeReserved_eq] using hm
      · simpa [hp, hm, eq_comm] using h

/-- A cycle that is not refused runs the operation of the mode register. -/
theorem cycleEdge_exec {s : State} (hp : s.cfg.wf = true) (hm : s.ins.cfgMode = s.stage.mode) :
    cycleEdge s = exec (decode s.stage.mode) s := by
  simp [cycleEdge, cycleRefusal, paramsRefusal_eq_none.mpr hp, hm]

/-- Inversion of a cycle. -/
theorem cycleEdge_cases {s t : State} (h : cycleEdge s = .next t) :
    s.cfg.wf = true ∧ s.ins.cfgMode = s.stage.mode ∧ exec (decode s.stage.mode) s = .next t := by
  unfold cycleEdge cycleRefusal at h
  cases hp : paramsRefusal s.cfg with
  | some r => simp [hp] at h
  | none =>
    by_cases hm : s.ins.cfgMode = s.stage.mode
    · exact ⟨paramsRefusal_eq_none.mp hp, hm, by simpa [hp, hm] using h⟩
    · simp [hp, hm] at h

/-- Everything an operation can do. -/
theorem exec_cases {i : Instr} {s t : State} (h : exec i s = .next t) :
    (i = .bypass ∧ t = s.drive { sample := s.ins.inSample, valid := true }) ∨
    (i = .smooth ∧ ∃ r, filterProcess .smoothing s.cfg s.stage.fS s.ins.inSample = .ok r ∧
      t = (s.withFS r.inst).drive { sample := r.sample, valid := r.valid }) ∨
    (i = .sharpen ∧ ∃ r, filterProcess .sharpening s.cfg s.stage.fSH s.ins.inSample = .ok r ∧
      t = (s.withFSH r.inst).drive { sample := r.sample, valid := r.valid }) ∨
    (i = .gradient ∧ ∃ r, filterProcess .gradientMagnitude s.cfg s.stage.fG s.ins.inSample = .ok r ∧
      t = (s.withFG r.inst).drive { sample := r.sample, valid := r.valid }) ∨
    (i = .chain ∧ ∃ rS, filterProcess .smoothing s.cfg s.stage.fS s.ins.inSample = .ok rS ∧
      ((rS.valid = false ∧ t = (s.withFS rS.inst).driveDraw) ∨
       (rS.valid = true ∧ ∃ rG, filterProcess .gradientMagnitude s.cfg s.stage.fG rS.sample = .ok rG ∧
        t = ((s.withFS rS.inst).withFG rG.inst).drive
          { sample := rG.sample, valid := chainValid rS.valid rG.valid }))) := by
  cases i with
  | bypass => exact .inl ⟨rfl, by simpa [exec, execBypass, eq_comm] using h⟩
  | smooth =>
    refine .inr (.inl ⟨rfl, ?_⟩)
    simp only [exec, execSmooth] at h
    split at h
    · cases h
    · next r hr => exact ⟨r, hr, by simpa [eq_comm] using h⟩
  | sharpen =>
    refine .inr (.inr (.inl ⟨rfl, ?_⟩))
    simp only [exec, execSharpen] at h
    split at h
    · cases h
    · next r hr => exact ⟨r, hr, by simpa [eq_comm] using h⟩
  | gradient =>
    refine .inr (.inr (.inr (.inl ⟨rfl, ?_⟩)))
    simp only [exec, execGradient] at h
    split at h
    · cases h
    · next r hr => exact ⟨r, hr, by simpa [eq_comm] using h⟩
  | chain =>
    refine .inr (.inr (.inr (.inr ⟨rfl, ?_⟩)))
    simp only [exec, execChain] at h
    split at h
    · cases h
    · next rS hS =>
      refine ⟨rS, hS, ?_⟩
      split at h
      · next hv =>
        split at h
        · cases h
        · next rG hG => exact .inr ⟨hv, rG, hG, by simpa [eq_comm] using h⟩
      · next hv => exact .inl ⟨by simpa using hv, by simpa [eq_comm] using h⟩
  | reserved101 => simp [exec, execReserved101] at h
  | reserved110 => simp [exec, execReserved110] at h
  | reserved111 => simp [exec, execReserved111] at h

/-- Everything a step can do: a reset edge, or a cycle that runs the operation of the mode register. -/
theorem step_cases {s t : State} (h : step s = .next t) :
    (s.present.ins.rst = true ∧ resetEdge s.present = .next t) ∨
    (s.present.ins.rst = false ∧ cycleEdge s.present = .next t) := by
  unfold step clockEdge at h
  split at h
  · next hr => exact .inl ⟨hr, h⟩
  · next hr => exact .inr ⟨by simpa using hr, h⟩

/-- A listed reset edge. -/
theorem step_of_reset_listed {s : State} {e : Edge} {rest : List Edge} (hp : s.pending = e :: rest) (hr : e.rst = true) :
    step s = resetEdge { s with ins := e, pending := rest } := by
  simp [step, State.present_cons s e rest hp, clockEdge, hr]

/-- A listed cycle. -/
theorem step_of_cycle_listed {s : State} {e : Edge} {rest : List Edge} (hp : s.pending = e :: rest)
    (hr : e.rst = false) : step s = cycleEdge { s with ins := e, pending := rest } := by
  simp [step, State.present_cons s e rest hp, clockEdge, hr]

theorem trace_succ {n : Nat} {s t : State} (h : step s = .next t) : trace (n + 1) s = t.out :: trace n t := by
  simp [trace, h]

theorem steps_succ {n : Nat} {s t : State} (h : step s = .next t) : steps (n + 1) s = steps n t := by
  simp [steps, h]

end Sys2Proof.Machine
end

