-- ==== Sys2Proof/Tests/Slice0.lean ====
section
/-! SUPPORT. The model's own tests. Expected values are the spec's (95_test_vectors.md, 30_encoding.md R72, 60_exceptions.md
R162) or worked by hand from its rules; each test names its source. Then, for every statement with hypotheses, a witness
that meets them. -/

namespace Sys2Proof.Tests

open Sys2Proof.Machine
open Sys2Proof.Config (Params)

/-! ### Helpers -/

/-- The output ports a step or an operation leaves. -/
def outOf : Host.Outcome State Fault Refusal → Option Output
  | .next t => some t.out
  | .fault _ => none
  | .refused _ => none

/-- The architectural state a step or an operation leaves. -/
def stageOf : Host.Outcome State Fault Refusal → Option Stage
  | .next t => some t.stage
  | .fault _ => none
  | .refused _ => none

/-- The reason of a refused step. -/
def reasonOf : Host.Outcome State Fault Refusal → Option Refusal
  | .next _ => none
  | .fault _ => none
  | .refused r => some r

/-- Parameters with another W. -/
def withWidth (w : Int) : Params := { Params.standard with rowWidth := w }

/-- The instance of V-F-1 and V-RH-1 after the inputs 10, 20, 30, 40, 50 (W = 3). -/
def instMid : FilterInst where
  rh := { rows := [(0, 10), (1, 20), (3, 40), (4, 50), (5, 30)], cursor := 2, completed := 1 }
  sw := { win := #v[#v[0, 0, 0], #v[0, 10, 20], #v[30, 40, 50]] }
  xCnt := 2
  yCnt := 1

/-- A state in this mode with every instance at `instMid`, or F_G fresh, and this `in_sample`. -/
def stateMid (bits : ModeBits) (freshG : Bool) (x : Sample) : State :=
  { State.reset with
    stage := { mode := bits, fS := instMid, fSH := instMid,
               fG := if freshG then FilterInst.fresh Params.standard else instMid }
    ins := cycleEdgeOf bits x }

/-- A window written as the spec writes one. -/
def window (a b c d e f g h i : Sample) : Window := { win := #v[#v[a, b, c], #v[d, e, f], #v[g, h, i]] }

/-! ### WellFormed: each check refuses a term that is wrong in it alone -/

theorem test_wf_standard : Params.standard.wf = true := by decide
theorem test_wf_width : (withWidth 0).widthPositive = false ∧ (withWidth 0).wf = false := by decide
theorem test_wf_height : Params.wf { Params.standard with height := some 0 } = false := by decide
theorem test_wf_kernel_even : Params.wf { withWidth 8 with kernelSize := 4 } = false := by decide
theorem test_wf_kernel_three : Params.wf { withWidth 8 with kernelSize := 5 } = false := by decide
theorem test_wf_kernel_fits : (withWidth 2).wf = false ∧ (withWidth 3).wf = true := by decide
theorem test_wf_capacity : (withWidth 4097).wf = false ∧ (withWidth 4096).wf = true := by decide
theorem test_wf_mode : Instr.reserved101.wf = false ∧ Instr.reserved110.wf = false ∧ Instr.reserved111.wf = false := by
  decide
theorem test_wf_program :
    StreamProgram.wf Params.standard { mode := .reserved101, width := 3, feed := [], flush := 0 } = false ∧
    StreamProgram.wf Params.standard { mode := .chain, width := 2, feed := [], flush := 0 } = false := by decide

/-! ### Decode: the words of R72's table, bit by bit -/

theorem test_decode_none : decode 0b000#3 = .bypass := by decide
theorem test_decode_smooth : decode 0b001#3 = .smooth := by decide
theorem test_decode_sharpen : decode 0b010#3 = .sharpen := by decide
theorem test_decode_gradient : decode 0b011#3 = .gradient := by decide
theorem test_decode_chain : decode 0b100#3 = .chain := by decide
theorem test_decode_reserved :
    decode 0b101#3 = .reserved101 ∧ decode 0b110#3 = .reserved110 ∧ decode 0b111#3 = .reserved111 := by decide
theorem test_decode_table_word : decodeTableWord 8 4 = some .chain ∧ decodeTableWord 8 7 = some .reserved111 := by
  decide

/-! ### Components -/

/-- V-RH-1, call 5: `advance(60)` returns [0, 30, 60] and leaves rows [[10,20,30],[40,50,60]], cursor 0, completed 2. -/
theorem test_row_history_advance :
    rowHistoryAdvance 3 Params.standard instMid.rh 60 =
      .ok (#v[0, 30, 60],
        { rows := [(0, 10), (1, 20), (2, 30), (3, 40), (4, 50), (5, 60)], cursor := 0, completed := 2 }) := by rfl

/-- 10_state.md R24, V-RH-1: a wrap at completed = 3 leaves 3. -/
theorem test_completed_saturates :
    completedNext 3 Params.standard { rows := [], cursor := 2, completed := 3 } = 3 := by decide

/-- A write of what an unlisted address reads as removes the entry. -/
theorem test_memory_write_removes : Memory.write 0 [(0, 10), (1, 20)] 0 0 = [(1, 20)] := by decide

/-- V-SW-1: the fourth shift. -/
theorem test_window_shift :
    windowShift 3 (window 1 4 7 2 5 8 3 6 9) #v[10, 11, 12] = window 4 7 10 5 8 11 6 9 12 := by decide

/-- V-R-6 (floor, and the clamp at 0), in both implementations. -/
theorem test_reduce_floor :
    reduceSmooth .div (window 1 2 3 4 0 0 7 0 0) = 1 ∧ reduceSmooth .fixed (window 1 2 3 4 0 0 7 0 0) = 1 ∧
      reduceSharpen (window 1 2 3 4 0 0 7 0 0) = 0 ∧ reduceGradient (window 1 2 3 4 0 0 7 0 0) = 14 := by decide

/-- V-R-5: sum 9, where 7281 would give 0. -/
theorem test_reduce_fixed_nine : reduceSmooth .fixed (window 9 0 0 0 0 0 0 0 0) = 1 := by decide

/-- V-R-10 and V-R-11: Sharpening at its upper bound and one above it. -/
theorem test_reduce_sharpen_bound :
    reduceSharpen (window 0 0 0 0 51 0 0 0 0) = 255 ∧ reduceSharpen (window 0 1 0 1 52 1 0 1 0) = 255 := by decide

/-- V-R-20 to V-R-22: both signs, the largest unsaturated gradient, and saturation. -/
theorem test_reduce_gradient :
    reduceGradient (window 12 10 10 12 10 10 12 11 10) = 10 ∧ reduceGradient (window 0 0 0 0 0 127 0 0 0) = 254 ∧
      reduceGradient (window 0 0 0 0 0 128 0 0 0) = 255 := by decide

/-! ### Operations, one step each -/

/-- V-ST-1. -/
theorem test_exec_none : outOf (exec .bypass (stateMid 0b000#3 false 255)) = some { sample := 255, valid := true } := by
  decide

/-- V-F-1, call 5. -/
theorem test_exec_smooth : outOf (exec .smooth (stateMid 0b001#3 false 60)) = some { sample := 23, valid := true } := by
  decide

/-- V-F-1, call 5: x_cnt 0, y_cnt 2, and the other instances kept (R148). -/
theorem test_exec_smooth_state :
    (stageOf (exec .smooth (stateMid 0b001#3 false 60))).map
        (fun st => (st.fS.xCnt, st.fS.yCnt, decide (st.fSH = instMid), decide (st.fG = instMid))) =
      some (0, 2, true, true) := by decide

/-- By hand from R127 on the window [[0,0,0],[10,20,30],[40,50,60]]: 100 − 0 − 50 − 10 − 30 = 10. -/
theorem test_exec_sharpen : outOf (exec .sharpen (stateMid 0b010#3 false 60)) = some { sample := 10, valid := true } := by
  decide

/-- V-L1-1, GRADIENT, cycle 0. -/
theorem test_exec_gradient_first :
    outOf (exec .gradient (stateMid 0b011#3 true 100)) = some { sample := 200, valid := false } := by decide

/-- P3, cycle 5: F_S returns 23, valid, and F_G's first call gives 46, not valid. -/
theorem test_exec_chain_fed : outOf (exec .chain (stateMid 0b100#3 true 60)) = some { sample := 46, valid := false } := by
  decide

/-- V-ST-4, cycle 0: not valid, and F_G is not fed. -/
theorem test_exec_chain_unfed :
    (stageOf (exec .chain { State.reset with ins := cycleEdgeOf 0b100#3 10 })).map (fun st => (st.fS.xCnt, st.fG.xCnt)) =
      some (1, 0) := by decide

/-- R73. -/
theorem test_exec_reserved :
    reasonOf (exec .reserved101 State.reset) = some .reservedMode ∧
      reasonOf (exec .reserved110 State.reset) = some .reservedMode ∧
      reasonOf (exec .reserved111 State.reset) = some .reservedMode := by decide

/-! ### Edges -/

/-- V-X-1. -/
theorem test_reset_reserved :
    reasonOf (step (State.reset.listing [resetEdgeOf 0b101#3 0])) = some .reservedMode ∧
      reasonOf (step (State.reset.listing [resetEdgeOf 0b111#3 0])) = some .reservedMode := by decide

/-- V-X-2, V-X-3 and V-X-4. -/
theorem test_reset_bad_configuration :
    reasonOf (step { State.reset with cfg := withWidth 2, pending := [resetEdgeOf 0b001#3 0] }) =
        some .kernelWiderThanRow ∧
      reasonOf (step { State.reset with cfg := withWidth 0, pending := [resetEdgeOf 0b001#3 0] }) = some .badWidth ∧
      reasonOf (step { State.reset with
          cfg := { withWidth 8 with kernelSize := 5 }, pending := [resetEdgeOf 0b001#3 0] }) =
        some .kernelNotThree := by decide

/-- V-X-5 and V-X-8: the construction state in mode GRADIENT, with no 255 anywhere. -/
theorem test_reset_constructs :
    stageOf (step { stateMid 0b001#3 false 7 with pending := [resetEdgeOf 0b011#3 255] }) =
      some { State.reset.stage with mode := 0b011#3 } := by decide

/-- V-X-7. -/
theorem test_mode_change_refused :
    reasonOf (step { stateMid 0b001#3 false 7 with pending := [cycleEdgeOf 0b011#3 7] }) =
      some .modeChangeMidStream := by decide

/-- P4's first cycle as a listed edge. -/
theorem test_step_none :
    outOf (step (State.reset.listing [cycleEdgeOf 0b000#3 7])) = some { sample := 7, valid := true } := by decide

/-- A placed table word is what the next step runs. -/
theorem test_fetch_word :
    reasonOf (step (State.reset.withFetchWord 8 5)) = some .reservedMode ∧
      outOf (step (State.reset.withFetchWord 8 3)) = some { sample := 0, valid := false } := by decide

/-- P4 as edges (R80): one reset edge and four cycles. -/
theorem test_program_edges :
    StreamProgram.edges { mode := .bypass, width := 3, feed := [7, 0], flush := 1 } =
      [{ rst := true, cfgMode := 0b000#3, inSample := 0 }, { rst := false, cfgMode := 0b000#3, inSample := 7 },
       { rst := false, cfgMode := 0b000#3, inSample := 0 }, { rst := false, cfgMode := 0b000#3, inSample := 0 }] := by
  decide

/-! ### Witnesses: for each statement with hypotheses, states and operands that meet them together, one for each clause,
at the ends of the ranges -/

/-- The samples of V-F-1 (W = 3). -/
def six : List Sample := [10, 20, 30, 40, 50, 60]

/-- `stateMid` with these edges to come. -/
def midListing (bits : ModeBits) (es : List Edge) : State := (stateMid bits false 0).listing es

/-- `State.reset` with W, and one edge to come. -/
def resetWithWidth (w : Int) (e : Edge) : State := { State.reset with cfg := withWidth w, pending := [e] }

theorem witness_StepRunsDecodedInstruction :
    (midListing 0b001#3 [cycleEdgeOf 0b001#3 60]).cfg.wf = true ∧
    (midListing 0b001#3 [cycleEdgeOf 0b001#3 60]).pending = cycleEdgeOf 0b001#3 60 :: [] ∧
    (cycleEdgeOf 0b001#3 60).rst = false ∧
    (cycleEdgeOf 0b001#3 60).cfgMode = (midListing 0b001#3 [cycleEdgeOf 0b001#3 60]).stage.mode ∧
    State.reset.cfg.wf = true ∧ State.reset.pending = [] := by decide

theorem witness_FetchWordRunsTableInstruction : (stateMid 0b001#3 false 60).cfg.wf = true := by decide

/-- The last fed sample and the last flush sample. -/
theorem witness_StreamProgramEncoding :
    2 < (StreamProgram.feed { mode := .chain, width := 3, feed := [1, 2, 3], flush := 2 }).length ∧
    1 < StreamProgram.flush { mode := .chain, width := 3, feed := [1, 2, 3], flush := 2 } := by decide

/-- W = 2 is refused, W = 3 and W = W_MAX are not. -/
theorem witness_ResetEdgeConstructs :
    (resetWithWidth 2 (resetEdgeOf 0b001#3 7)).pending = resetEdgeOf 0b001#3 7 :: [] ∧
    (resetEdgeOf 0b001#3 7).rst = true ∧ refusalCondition .kernelWiderThanRow (withWidth 2) 0b001#3 ∧
    (¬ ∃ r, refusalCondition r (withWidth 3) 0b100#3) ∧ ¬ ∃ r, refusalCondition r (withWidth 4096) 0b000#3 := by
  refine ⟨by decide, by decide, by decide, ?_, ?_⟩ <;> rintro ⟨r, h⟩ <;>
    cases r <;> simp [refusalCondition, withWidth, Params.standard] at h

theorem witness_ResetEdgeOutputs :
    (midListing 0b001#3 [resetEdgeOf 0b100#3 7]).pending = resetEdgeOf 0b100#3 7 :: [] ∧
    (resetEdgeOf 0b100#3 7).rst = true ∧
    ¬ ∃ r, refusalCondition r (midListing 0b001#3 [resetEdgeOf 0b100#3 7]).cfg (resetEdgeOf 0b100#3 7).cfgMode := by
  refine ⟨by decide, by decide, ?_⟩
  rintro ⟨r, h⟩
  cases r <;> simp [refusalCondition, midListing, stateMid, State.listing, State.reset, resetEdgeOf, Params.standard] at h

theorem witness_ResetIgnoresSample :
    ∃ t, step ((stateMid 0b001#3 false 7).listing (resetEdgeOf 0b011#3 255 :: [])) = .next t := ⟨_, rfl⟩

theorem witness_ConsecutiveResetsActAsOne :
    State.reset.cfg.wf = true ∧ (decode 0b001#3).wf = true ∧ (decode 0b100#3).wf = true := by decide

/-- Each reason of R162's table is the answer of some reset edge: the width at 0 and above W_MAX, the height at 0, K even,
K = 5, K > W at W = 2, and the first and last reserved value. -/
theorem witness_ConfigurationRefusals :
    reasonOf (step (resetWithWidth 0 (resetEdgeOf 0b001#3 0))) = some .badWidth ∧
    reasonOf (step { State.reset with
      cfg := { Params.standard with height := some 0 }, pending := [resetEdgeOf 0b001#3 0] }) = some .badHeight ∧
    reasonOf (step { State.reset with
      cfg := { withWidth 8 with kernelSize := 4 }, pending := [resetEdgeOf 0b001#3 0] }) = some .evenKernel ∧
    reasonOf (step { State.reset with
      cfg := { withWidth 8 with kernelSize := 5 }, pending := [resetEdgeOf 0b001#3 0] }) = some .kernelNotThree ∧
    reasonOf (step (resetWithWidth 2 (resetEdgeOf 0b001#3 0))) = some .kernelWiderThanRow ∧
    reasonOf (step (resetWithWidth 4097 (resetEdgeOf 0b001#3 0))) = some .widthOverCapacity ∧
    reasonOf (step (resetWithWidth 3 (resetEdgeOf 0b101#3 0))) = some .reservedMode ∧
    reasonOf (step (resetWithWidth 3 (resetEdgeOf 0b111#3 0))) = some .reservedMode := by decide

theorem witness_MalformedConfigurationHasNoStep :
    (resetWithWidth 2 (cycleEdgeOf 0b000#3 0)).cfg.wf = false ∧
    (resetWithWidth 4097 (resetEdgeOf 0b000#3 0)).cfg.wf = false := by decide

theorem witness_ReservedModesAreRefused :
    (resetWithWidth 3 (resetEdgeOf 0b110#3 0)).cfg.wf = true ∧
    (resetWithWidth 3 (resetEdgeOf 0b110#3 0)).pending = resetEdgeOf 0b110#3 0 :: [] ∧
    (resetEdgeOf 0b110#3 0).rst = true ∧ (resetEdgeOf 0b101#3 0).cfgMode = 0b101#3 ∧
    (resetEdgeOf 0b110#3 0).cfgMode = 0b110#3 ∧ (resetEdgeOf 0b111#3 0).cfgMode = 0b111#3 := by decide

theorem witness_ModeChangeMidStreamIsRefused :
    (midListing 0b001#3 [cycleEdgeOf 0b100#3 7]).cfg.wf = true ∧
    (midListing 0b001#3 [cycleEdgeOf 0b100#3 7]).pending = cycleEdgeOf 0b100#3 7 :: [] ∧
    (cycleEdgeOf 0b100#3 7).rst = false ∧
    (cycleEdgeOf 0b100#3 7).cfgMode ≠ (midListing 0b001#3 [cycleEdgeOf 0b100#3 7]).stage.mode := by decide

/-- A reset edge into another mode, a cycle, and a cycle with `cfg_mode` moved. -/
theorem witness_ModeChangesOnlyByReset :
    (∃ t, step (midListing 0b001#3 [resetEdgeOf 0b100#3 7]) = .next t ∧
      (midListing 0b001#3 [resetEdgeOf 0b100#3 7]).present.ins.rst = true) ∧
    (∃ t, step (midListing 0b001#3 [cycleEdgeOf 0b001#3 7]) = .next t ∧
      (midListing 0b001#3 [cycleEdgeOf 0b001#3 7]).present.ins.rst = false) ∧
    (midListing 0b001#3 [cycleEdgeOf 0b100#3 7]).present.ins.rst = false ∧
    (midListing 0b001#3 [cycleEdgeOf 0b100#3 7]).present.ins.cfgMode ≠
      (midListing 0b001#3 [cycleEdgeOf 0b100#3 7]).stage.mode := ⟨⟨_, rfl, rfl⟩, ⟨_, rfl, rfl⟩, by decide, by decide⟩

theorem witness_ParametersAreNeverWritten :
    ∃ t, step (midListing 0b010#3 [cycleEdgeOf 0b010#3 7]) = .next t := ⟨_, rfl⟩

/-- The smallest kernel, and K = 3 at the last position of a row and at the first. -/
theorem witness_RowHistoryAdvance :
    1 ≤ 1 ∧ instMid.rh.cursor < Params.standard.w ∧ Memory.wf Params.standard.initFill instMid.rh.rows = true ∧
    instMid.rh.cursor + 1 = Params.standard.w ∧ 0 + 1 < 3 ∧ ¬ 2 + 1 < 3 ∧
    (FilterInst.fresh Params.standard).rh.cursor < Params.standard.w ∧
    (FilterInst.fresh Params.standard).rh.cursor + 1 ≠ Params.standard.w := by decide

/-- V-RH-1, call 5: the count rises to 2 and readiness comes with it; with K = 1 a history is ready from the start. -/
theorem witness_ReadinessIsMonotone :
    (∃ column rh', rowHistoryAdvance 3 Params.standard instMid.rh 60 = .ok (column, rh') ∧
      rowHistoryReady 3 rh' = true) ∧ instMid.rh.completed ≤ 3 ∧
    rowHistoryReady 1 (FilterInst.fresh Params.standard).rh = true ∧
    (∃ column rh', rowHistoryAdvance 1 Params.standard (FilterInst.fresh Params.standard).rh 60 = .ok (column, rh')) :=
  ⟨⟨_, _, rfl, rfl⟩, by decide, by decide, ⟨_, _, rfl⟩⟩

/-- The oldest element of the first column and the newest of the last. -/
theorem witness_RowHistoryColumnClosedForm :
    1 ≤ 3 ∧ 0 < Params.standard.w ∧
    ∃ columns rh, rowHistoryFeed 3 Params.standard (constructInst Params.standard).rh six = .ok (columns, rh) ∧
      0 < columns.length ∧ 5 < columns.length := ⟨by decide, by decide, _, _, rfl, by decide, by decide⟩

theorem witness_WindowShift : (1 : Fin 3).val + 1 < 3 ∧ (2 : Fin 3).val + 1 = 3 := by decide

/-- No column yet inserted, and as many as make the oldest position new. -/
theorem witness_WindowColumnAge :
    0 < 3 ∧ 2 < 3 ∧ 2 + ([] : List (Vector Sample 3)).length < 3 ∧
    3 ≤ 2 + [(#v[1, 2, 3] : Vector Sample 3)].length ∧
    3 ≤ 0 + [(#v[1, 2, 3] : Vector Sample 3), #v[4, 5, 6], #v[7, 8, 9]].length := by decide

/-- 7282 meets the source's property at the largest sum; 7281 fails it at 9 (V-R-5). -/
theorem witness_FixedPointMultipliers :
    fixedQuotient 7282 2295 = 2295 / 9 ∧ fixedQuotient 7284 2295 = 2295 / 9 ∧ fixedQuotient 7281 9 ≠ 9 / 9 := by decide

theorem witness_UniformWindows :
    (∀ i j : Fin 3, (window 255 255 255 255 255 255 255 255 255).win[i][j] = 255) ∧
    (∀ i j : Fin 3, (window 0 0 0 0 0 0 0 0 0).win[i][j] = 0) := by decide

theorem witness_FilterProcess :
    instMid.rh.cursor < Params.standard.w ∧ instMid.xCnt + 1 = Params.standard.w ∧
    (FilterInst.fresh Params.standard).rh.cursor < Params.standard.w ∧
    (FilterInst.fresh Params.standard).xCnt + 1 ≠ Params.standard.w := by decide

theorem witness_InstanceCountersAfterCalls : 0 < Params.standard.w := by decide

/-- W = 3, the first call and the first valid one, 2W − 1. -/
theorem witness_InstanceOutputClosedForm :
    3 ≤ Params.standard.w ∧ six ≠ [] ∧
    ∃ outs f, instFeed .smoothing Params.standard (constructInst Params.standard) six = .ok (outs, f) ∧
      0 < outs.length ∧ 2 * Params.standard.w - 1 < outs.length :=
  ⟨by decide, by decide, _, _, rfl, by decide, by decide⟩

theorem witness_SaturatedRowCountIsEquivalent :
    ∃ r, filterProcess .smoothing Params.standard { instMid with yCnt := 9 } 60 = .ok r := ⟨_, rfl⟩

theorem witness_FilterModesDelegate :
    (stateMid 0b001#3 false 60).stage.fS.rh.cursor < (stateMid 0b001#3 false 60).cfg.w ∧
    (stateMid 0b010#3 false 60).stage.fSH.rh.cursor < (stateMid 0b010#3 false 60).cfg.w ∧
    (stateMid 0b011#3 false 60).stage.fG.rh.cursor < (stateMid 0b011#3 false 60).cfg.w := by decide

/-- F_S invalid (V-ST-4, cycle 0), and F_S valid (P3, cycle 5). -/
theorem witness_ChainFeedsGradientOnValid :
    (∃ rS, filterProcess .smoothing State.reset.cfg State.reset.stage.fS 10 = .ok rS ∧ rS.valid = false) ∧
    (∃ rS, filterProcess .smoothing (stateMid 0b100#3 true 60).cfg (stateMid 0b100#3 true 60).stage.fS 60 = .ok rS ∧
      rS.valid = true) ∧
    State.reset.stage.fS.rh.cursor < State.reset.cfg.w ∧
    (stateMid 0b100#3 true 60).stage.fS.rh.cursor < (stateMid 0b100#3 true 60).cfg.w ∧
    (stateMid 0b100#3 true 60).stage.fG.rh.cursor < (stateMid 0b100#3 true 60).cfg.w :=
  ⟨⟨_, rfl, rfl⟩, ⟨_, rfl, rfl⟩, by decide, by decide, by decide⟩

/-- Every legal operation leaves a next state; so does CHAIN with F_S invalid after it. -/
theorem witness_OperationsFrame :
    (∃ t, exec .bypass (stateMid 0b000#3 false 60) = .next t) ∧ (∃ t, exec .smooth (stateMid 0b001#3 false 60) = .next t) ∧
    (∃ t, exec .sharpen (stateMid 0b010#3 false 60) = .next t) ∧
    (∃ t, exec .gradient (stateMid 0b011#3 false 60) = .next t) ∧
    (∃ t, exec .chain (stateMid 0b100#3 false 60) = .next t ∧ filterValid t.stage.fS = true) ∧
    (∃ t, exec .chain State.reset = .next t ∧ filterValid t.stage.fS = false) :=
  ⟨⟨_, rfl⟩, ⟨_, rfl⟩, ⟨_, rfl⟩, ⟨_, rfl⟩, ⟨_, rfl, rfl⟩, ⟨_, rfl, rfl⟩⟩

/-- An address beside the two stored ones, 2 and 5. -/
theorem witness_RowStorageFrame :
    Memory.wf Params.standard.initFill instMid.rh.rows = true ∧
    (∃ r, filterProcess .sharpening Params.standard instMid 60 = .ok r) ∧
    4 ≠ rowAddr Params.standard 0 instMid.rh.cursor ∧ 4 ≠ rowAddr Params.standard 1 instMid.rh.cursor :=
  ⟨by decide, ⟨_, rfl⟩, by decide, by decide⟩

theorem witness_OutputsIgnoreOtherInstances :
    (∃ t, exec .smooth (stateMid 0b001#3 false 60) = .next t) ∧
    (∃ t, exec .sharpen (stateMid 0b010#3 false 60) = .next t) ∧
    (∃ t, exec .gradient (stateMid 0b011#3 false 60) = .next t) ∧
    (∃ t, exec .chain (stateMid 0b100#3 false 60) = .next t) := ⟨⟨_, rfl⟩, ⟨_, rfl⟩, ⟨_, rfl⟩, ⟨_, rfl⟩⟩

/-- The invariant holds of the state after reset and of one in the middle of a stream. -/
theorem witness_StepKeepsInvariant :
    State.Inv (midListing 0b100#3 [cycleEdgeOf 0b100#3 60]) ∧
    ∃ t, step (midListing 0b100#3 [cycleEdgeOf 0b100#3 60]) = .next t := ⟨by decide, _, rfl⟩

theorem witness_NoRuntimeFault : State.Inv State.reset ∧ State.Inv (stateMid 0b011#3 false 0) := by decide

theorem witness_EveryConfiguredStateHasASuccessor :
    State.Inv (stateMid 0b100#3 false 0) ∧ (decode 0b000#3).wf = true ∧ (decode 0b100#3).wf = true := by decide

theorem witness_LegalOperationsComplete :
    State.Inv (stateMid 0b001#3 false 0) ∧ Instr.bypass.wf = true ∧ Instr.smooth.wf = true ∧
    Instr.sharpen.wf = true ∧ Instr.gradient.wf = true ∧ Instr.chain.wf = true := by decide

/-- A run of SMOOTH, one of SHARPEN and one of GRADIENT, so that each clause is met. -/
theorem witness_IdleInstancesKeepTheirState :
    (∃ t, steps six.length ((stateMid 0b001#3 false 0).listing (six.map (cycleEdgeOf 0b001#3))) = .next t) ∧
    decode 0b001#3 ≠ .sharpen ∧ decode 0b001#3 ≠ .gradient ∧ decode 0b001#3 ≠ .chain ∧
    (∃ t, steps six.length ((stateMid 0b010#3 false 0).listing (six.map (cycleEdgeOf 0b010#3))) = .next t) ∧
    decode 0b010#3 ≠ .smooth ∧ decode 0b010#3 ≠ .chain :=
  ⟨⟨_, rfl⟩, by decide, by decide, by decide, ⟨_, rfl⟩, by decide, by decide⟩

theorem witness_OutValidIsMonotone :
    State.Inv (midListing 0b001#3 [cycleEdgeOf 0b001#3 60, cycleEdgeOf 0b001#3 70]) ∧
    (midListing 0b001#3 [cycleEdgeOf 0b001#3 60, cycleEdgeOf 0b001#3 70]).present.ins.rst = false ∧
    ∃ t u, step (midListing 0b001#3 [cycleEdgeOf 0b001#3 60, cycleEdgeOf 0b001#3 70]) = .next t ∧ step t = .next u ∧
      t.present.ins.rst = false ∧ t.out.valid = true := ⟨by decide, by decide, _, _, rfl, rfl, rfl, rfl⟩

theorem witness_StartupLatency : State.reset.cfg.wf = true ∧ Instr.bypass.wf = true ∧ Instr.chain.wf = true := by decide

theorem witness_CyclesForAFullImage : State.reset.cfg.wf = true ∧ Instr.chain.wf = true ∧ 0 < 1 := by decide

/-- The first cycle, and the first valid one. -/
theorem witness_StreamOutputClosedForm :
    State.reset.cfg.wf = true ∧ 0 < six.length ∧ 2 * State.reset.cfg.w - 1 < six.length := by decide

/-- The first cycle that feeds F_G, and the first valid one (W = 3). -/
theorem witness_ChainOutputClosedForm :
    State.reset.cfg.wf = true ∧ 5 < (six ++ six).length ∧ 2 * State.reset.cfg.w - 1 ≤ 5 ∧
    10 < (six ++ six).length ∧ 4 * State.reset.cfg.w - 2 ≤ 10 := by decide

/-- V-F-1, call 5, in two builds. -/
theorem witness_WindowResetIsUnobservable :
    State.reset.cfg.wf = true ∧ Instr.smooth.wf = true ∧
    State.cfg { State.reset with cfg := { Params.standard with winInit := 9 } } = { State.reset.cfg with winInit := 9 } ∧
    (trace (six.length + 1) (State.reset.listing (streamEdges (encode .smooth) six)))[6]? =
      some { sample := 23, valid := true } := ⟨by decide, by decide, rfl, rfl⟩

theorem witness_FilterModesIgnoreRowResetAfterThreeValid :
    State.reset.cfg.wf = true ∧
    State.cfg { State.reset with cfg := { Params.standard with initFill := 9 } } = { State.reset.cfg with initFill := 9 } ∧
    2 * State.reset.cfg.w + 2 ≤ 8 := by decide

/-- W = 3, the first such cycle, of a stream that has it. -/
theorem witness_ChainIgnoresRowResetAfterSixValid :
    State.reset.cfg.wf = true ∧
    State.cfg { State.reset with cfg := { Params.standard with initFill := 9 } } = { State.reset.cfg with initFill := 9 } ∧
    4 * State.reset.cfg.w + 4 ≤ 16 ∧ 16 < (six ++ six ++ six).length := by decide

end Sys2Proof.Tests
end

/-! PROOFS. The statements about the state: its invariant, its counters, its parameters, and which instances an operation
touches (10_state.md). -/

namespace Sys2Proof.Machine

open Sys2Proof.Config (Params)

/-! ### What an operation leaves of the state -/

/-- An operation writes neither the mode, nor a parameter, nor the host's list of edges (R36, R74). -/
theorem exec_frame {i : Instr} {s t : State} (h : exec i s = .next t) :
    t.cfg = s.cfg ∧ t.stage.mode = s.stage.mode ∧ t.pending = s.pending := by
  rcases exec_cases h with ⟨-, rfl⟩ | ⟨-, r, -, rfl⟩ | ⟨-, r, -, rfl⟩ | ⟨-, r, -, rfl⟩ |
    ⟨-, rS, -, ⟨-, rfl⟩ | ⟨-, rG, -, rfl⟩⟩ <;> exact ⟨rfl, rfl, rfl⟩

/-- The instance `f` has become `g`: as it was, or, where it is `fed`, one call further. -/
def FilterInst.KeptOrCalled (prm : Params) (fed : Prop) (f g : FilterInst) : Prop :=
  g = f ∨ fed ∧ ∃ x, g = instAfter prm f x

theorem FilterInst.keptOrCalled_refl (prm : Params) (fed : Prop) (f : FilterInst) : f.KeptOrCalled prm fed f :=
  .inl rfl

theorem FilterInst.keptOrCalled_of_filterProcess {red : Reduction} {prm : Params} {fed : Prop} {f : FilterInst}
    {x : Sample} {r : Processed} (hfed : fed) (h : filterProcess red prm f x = .ok r) :
    f.KeptOrCalled prm fed r.inst := by
  obtain ⟨-, -, -, hinst⟩ := filterProcess_cases h
  exact .inr ⟨hfed, x, hinst⟩

theorem FilterInst.KeptOrCalled.eq_of_not_fed {prm : Params} {fed : Prop} {f g : FilterInst}
    (h : f.KeptOrCalled prm fed g) (hfed : ¬ fed) : g = f :=
  h.resolve_right fun hcalled => hfed hcalled.1

theorem FilterInst.KeptOrCalled.inv {prm : Params} {fed : Prop} {f g : FilterInst} (h : f.KeptOrCalled prm fed g)
    (hf : f.Inv prm) : g.Inv prm := by
  rcases h with rfl | ⟨-, x, rfl⟩
  · exact hf
  · exact instAfter_inv x hf

/-- SMOOTH and CHAIN call F_S, SHARPEN calls F_SH, GRADIENT and CHAIN call F_G (R142 to R145), each at most once (R32,
R148). -/
theorem exec_instances {i : Instr} {s t : State} (h : exec i s = .next t) :
    s.stage.fS.KeptOrCalled s.cfg (i = .smooth ∨ i = .chain) t.stage.fS ∧
    s.stage.fSH.KeptOrCalled s.cfg (i = .sharpen) t.stage.fSH ∧
    s.stage.fG.KeptOrCalled s.cfg (i = .gradient ∨ i = .chain) t.stage.fG := by
  have kept := FilterInst.keptOrCalled_refl s.cfg
  rcases exec_cases h with ⟨-, rfl⟩ | ⟨hi, r, hr, rfl⟩ | ⟨hi, r, hr, rfl⟩ | ⟨hi, r, hr, rfl⟩ |
    ⟨hi, rS, hS, ⟨-, rfl⟩ | ⟨-, rG, hG, rfl⟩⟩
  · exact ⟨kept _ _, kept _ _, kept _ _⟩
  · exact ⟨FilterInst.keptOrCalled_of_filterProcess (.inl hi) hr, kept _ _, kept _ _⟩
  · exact ⟨kept _ _, FilterInst.keptOrCalled_of_filterProcess hi hr, kept _ _⟩
  · exact ⟨kept _ _, kept _ _, FilterInst.keptOrCalled_of_filterProcess (.inl hi) hr⟩
  · exact ⟨FilterInst.keptOrCalled_of_filterProcess (.inr hi) hS, kept _ _, kept _ _⟩
  · exact ⟨FilterInst.keptOrCalled_of_filterProcess (.inr hi) hS, kept _ _,
      FilterInst.keptOrCalled_of_filterProcess (.inr hi) hG⟩

/-! ### The invariant -/

theorem exec_keeps_inv {i : Instr} {s t : State} (hs : s.Inv) (h : exec i s = .next t) : t.Inv := by
  obtain ⟨hcfg, hmode, hS, hSH, hG⟩ := hs
  obtain ⟨hc, hm, -⟩ := exec_frame h
  obtain ⟨callS, callSH, callG⟩ := exec_instances h
  unfold State.Inv
  rw [hc, hm]
  exact ⟨hcfg, hmode, callS.inv hS, callSH.inv hSH, callG.inv hG⟩

/-- A reset edge establishes the invariant, whatever state it meets (R180). -/
theorem resetEdge_inv {s t : State} (h : resetEdge s = .next t) : t.Inv := by
  obtain ⟨hcfg, hmode, rfl⟩ := resetEdge_cases h
  have hinst : (constructInst s.cfg).Inv s.cfg := constructInst_inv (Nat.zero_lt_of_lt (three_le_w hcfg))
  exact ⟨hcfg, hmode, hinst, hinst, hinst⟩

theorem present_inv {s : State} (h : s.Inv) : s.present.Inv := by
  simpa only [State.Inv, State.present_cfg, State.present_stage] using h

/-- Settles O39: a reset edge establishes the invariant, and a cycle leaves each instance as it was or one call further,
which keeps it. -/
theorem stepKeepsInvariant : Obligations.StepKeepsInvariant := by
  intro s t hs h
  rcases step_cases h with ⟨-, hreset⟩ | ⟨-, hcycle⟩
  · exact resetEdge_inv hreset
  · obtain ⟨-, -, hexec⟩ := cycleEdge_cases hcycle
    exact exec_keeps_inv (present_inv hs) hexec

/-- Settles O15: neither the construction of a reset edge nor an operation writes `cfg`. -/
theorem parametersAreNeverWritten : Obligations.ParametersAreNeverWritten := by
  intro s t h
  rcases step_cases h with ⟨-, hreset⟩ | ⟨-, hcycle⟩
  · obtain ⟨-, -, rfl⟩ := resetEdge_cases hreset
    exact State.present_cfg s
  · obtain ⟨-, -, hexec⟩ := cycleEdge_cases hcycle
    obtain ⟨hcfg, -, -⟩ := exec_frame hexec
    exact hcfg.trans (State.present_cfg s)

/-! ### The counters of an instance after n calls -/

/-- The counters R29 gives an instance that has been called `n` times since reset. -/
def FilterInst.CountersAt (prm : Params) (n : Nat) (f : FilterInst) : Prop :=
  f.xCnt = n % prm.w ∧ f.rh.cursor = n % prm.w ∧ f.yCnt = n / prm.w ∧ f.rh.completed = min (n / prm.w) 3

theorem FilterInst.CountersAt.cursor_lt {prm : Params} {n : Nat} {f : FilterInst} (h : f.CountersAt prm n)
    (hw : 0 < prm.w) : f.rh.cursor < prm.w := by
  obtain ⟨-, hc, -, -⟩ := h
  rw [hc]
  exact Nat.mod_lt n hw

theorem constructInst_countersAt (prm : Params) : (constructInst prm).CountersAt prm 0 := by
  simp [FilterInst.CountersAt, constructInst]

/-- The call at the last position of a row ends it. -/
theorem div_mod_succ_of_last {n w : Nat} (hw : 0 < w) (hlast : n % w + 1 = w) :
    (n + 1) / w = n / w + 1 ∧ (n + 1) % w = 0 := by
  have hn := Nat.mod_add_div n w
  refine (Nat.div_mod_unique hw).mpr ⟨?_, hw⟩
  rw [Nat.mul_succ]
  omega

/-- A call at any other position stays in its row. -/
theorem div_mod_succ_of_not_last {n w : Nat} (hw : 0 < w) (hlast : n % w + 1 ≠ w) :
    (n + 1) / w = n / w ∧ (n + 1) % w = n % w + 1 := by
  have hn := Nat.mod_add_div n w
  have hlt := Nat.mod_lt n hw
  exact (Nat.div_mod_unique hw).mpr ⟨by omega, by omega⟩

theorem instAfter_countersAt {prm : Params} (hw : 0 < prm.w) {n : Nat} {f : FilterInst} (x : Sample)
    (h : f.CountersAt prm n) : (instAfter prm f x).CountersAt prm (n + 1) := by
  obtain ⟨hx, hc, hy, hcomp⟩ := h
  simp only [FilterInst.CountersAt, instAfter, xCntNext, yCntNext, cursorNext, completedNext, hx, hc, hy, hcomp]
  by_cases hlast : n % prm.w + 1 = prm.w
  · obtain ⟨hdiv, hmod⟩ := div_mod_succ_of_last hw hlast
    simp only [if_pos hlast, hdiv, hmod, true_and]
    omega
  · obtain ⟨hdiv, hmod⟩ := div_mod_succ_of_not_last hw hlast
    simp only [if_neg hlast, hdiv, hmod, and_self]

theorem instFeed_cons {red : Reduction} {prm : Params} {f last : FilterInst} {x : Sample} {xs : List Sample}
    {outs : List Output} (hc : f.rh.cursor < prm.w) (h : instFeed red prm (instAfter prm f x) xs = .ok (outs, last)) :
    instFeed red prm f (x :: xs) =
      .ok ({ sample := reduce red prm (instAfter prm f x).sw, valid := filterValid (instAfter prm f x) } :: outs,
        last) := by
  simp [instFeed, filterProcess_ok hc, h]

/-- Feeding completes from any instance with the counters of `n` calls, and counts on from there. -/
theorem instFeed_countersAt (red : Reduction) {prm : Params} (hw : 0 < prm.w) (xs : List Sample) :
    ∀ (n : Nat) (f : FilterInst), f.CountersAt prm n →
      ∃ outs last, instFeed red prm f xs = .ok (outs, last) ∧ last.CountersAt prm (n + xs.length) := by
  induction xs with
  | nil => exact fun n f hf => ⟨[], f, rfl, hf⟩
  | cons x xs ih =>
    intro n f hf
    obtain ⟨outs, last, hfeed, hlast⟩ := ih (n + 1) _ (instAfter_countersAt hw x hf)
    have hcursor : f.rh.cursor < prm.w := hf.cursor_lt hw
    refine ⟨_, last, instFeed_cons hcursor hfeed, ?_⟩
    rwa [List.length_cons, Nat.add_comm xs.length, ← Nat.add_assoc]

/-- Settles O29, by induction on the stream from an instance already called n times. -/
theorem instanceCountersAfterCalls : Obligations.InstanceCountersAfterCalls := by
  intro red prm xs hw
  obtain ⟨outs, last, hfeed, hlast⟩ := instFeed_countersAt red hw xs 0 _ (constructInst_countersAt prm)
  rw [Nat.zero_add] at hlast
  exact ⟨outs, last, hfeed, hlast⟩

/-! ### The saturated row count -/

/-- The instance as a build holds it that counts image rows to 2 only (R27, D14). -/
def FilterInst.saturated (f : FilterInst) : FilterInst := { f with yCnt := min f.yCnt 2 }

/-- `valid` asks of y_cnt only whether it is at least 2. -/
theorem filterValid_saturated (f : FilterInst) : filterValid f.saturated = filterValid f := by
  rw [Bool.eq_iff_iff, filterValid_iff, filterValid_iff]
  simp [FilterInst.saturated]

/-- A call on the saturated state leaves, saturated, what the call on the state itself leaves. -/
theorem saturated_instAfter_saturated (prm : Params) (f : FilterInst) (x : Sample) :
    (instAfter prm f.saturated x).saturated = (instAfter prm f x).saturated := by
  have hy : min (yCntNext prm f.saturated) 2 = min (yCntNext prm f) 2 := by
    unfold yCntNext FilterInst.saturated
    by_cases hlast : f.xCnt + 1 = prm.w
    · simp only [if_pos hlast]
      omega
    · simp only [if_neg hlast]
      omega
  exact congrArg (fun y => { instAfter prm f x with yCnt := y }) hy

/-- Settles O31: the window does not see y_cnt, and `valid` sees it up to 2 only. -/
theorem saturatedRowCountIsEquivalent : Obligations.SaturatedRowCountIsEquivalent := by
  intro red prm f x r h
  obtain ⟨hc, hsample, hvalid, hinst⟩ := filterProcess_cases h
  refine ⟨_, filterProcess_ok (f := f.saturated) hc, hsample.symm, ?_, ?_⟩
  · calc filterValid (instAfter prm f.saturated x)
        = filterValid (instAfter prm f.saturated x).saturated := (filterValid_saturated _).symm
      _ = filterValid (instAfter prm f x).saturated := by rw [saturated_instAfter_saturated]
      _ = r.valid := by rw [filterValid_saturated, hvalid]
  · rw [hinst]
    exact saturated_instAfter_saturated prm f x

/-! ### The instances a mode does not feed -/

/-- Inversion of a run that completes: its first edge, and the rest of it. -/
theorem steps_succ_cases {n : Nat} {s t : State} (h : steps (n + 1) s = .next t) :
    ∃ u, step s = .next u ∧ steps n u = .next t := by
  cases hstep : step s with
  | next u => exact ⟨u, rfl, by rwa [steps_succ hstep] at h⟩
  | fault e => simp [steps, hstep] at h
  | refused r => simp [steps, hstep] at h

/-- Inversion of a step on a listed cycle: it runs the operation of the mode register. -/
theorem step_cycle_listed_cases {s t : State} {bits : ModeBits} {x : Sample} {rest : List Edge}
    (hp : s.pending = cycleEdgeOf bits x :: rest) (h : step s = .next t) :
    exec (decode s.stage.mode) { s with ins := cycleEdgeOf bits x, pending := rest } = .next t := by
  rw [step_of_cycle_listed hp rfl] at h
  obtain ⟨-, -, hexec⟩ := cycleEdge_cases h
  exact hexec

/-- The instances the operation `i` does not feed are the same in both stages (R32). -/
def Stage.IdleKept (i : Instr) (a b : Stage) : Prop :=
  (i ≠ .smooth → i ≠ .chain → b.fS = a.fS) ∧ (i ≠ .sharpen → b.fSH = a.fSH) ∧
    (i ≠ .gradient → i ≠ .chain → b.fG = a.fG)

theorem Stage.IdleKept.trans {i : Instr} {a b c : Stage} (hab : Stage.IdleKept i a b) (hbc : Stage.IdleKept i b c) :
    Stage.IdleKept i a c := by
  obtain ⟨hS, hSH, hG⟩ := hab
  obtain ⟨hS', hSH', hG'⟩ := hbc
  exact ⟨fun h₁ h₂ => (hS' h₁ h₂).trans (hS h₁ h₂), fun h => (hSH' h).trans (hSH h),
    fun h₁ h₂ => (hG' h₁ h₂).trans (hG h₁ h₂)⟩

theorem exec_idleKept {i : Instr} {s t : State} (h : exec i s = .next t) : Stage.IdleKept i s.stage t.stage := by
  obtain ⟨callS, callSH, callG⟩ := exec_instances h
  exact ⟨fun h₁ h₂ => callS.eq_of_not_fed (not_or.mpr ⟨h₁, h₂⟩), callSH.eq_of_not_fed,
    fun h₁ h₂ => callG.eq_of_not_fed (not_or.mpr ⟨h₁, h₂⟩)⟩

/-- A run over the cycles the host has listed, of any length. -/
theorem steps_idleKept (xs : List Sample) :
    ∀ s t : State, s.pending = xs.map (cycleEdgeOf s.stage.mode) → steps xs.length s = .next t →
      Stage.IdleKept (decode s.stage.mode) s.stage t.stage := by
  induction xs with
  | nil =>
    rintro s _ - ⟨⟩
    exact ⟨fun _ _ => rfl, fun _ => rfl, fun _ _ => rfl⟩
  | cons x xs ih =>
    intro s t hp h
    obtain ⟨u, hstep, hrun⟩ := steps_succ_cases h
    have hexec := step_cycle_listed_cases hp hstep
    obtain ⟨-, hmode, hpending⟩ := exec_frame hexec
    replace hmode : u.stage.mode = s.stage.mode := hmode
    have hrest := ih u t (by rw [hpending, hmode]) hrun
    rw [hmode] at hrest
    exact (exec_idleKept hexec).trans hrest

/-- Settles O44, by induction on the cycles: each keeps the idle instances, and the mode that makes them idle. -/
theorem idleInstancesKeepTheirState : Obligations.IdleInstancesKeepTheirState :=
  fun xs s t h => steps_idleKept xs (s.listing (xs.map (cycleEdgeOf s.stage.mode))) t rfl h

/-! ### An operation in terms of the calls it makes -/

theorem exec_smooth_iff {s t : State} : exec .smooth s = .next t ↔
    ∃ r, filterProcess .smoothing s.cfg s.stage.fS s.ins.inSample = .ok r ∧
      t = (s.withFS r.inst).drive { sample := r.sample, valid := r.valid } := by
  refine ⟨fun h => by simpa using exec_cases h, ?_⟩
  rintro ⟨r, hr, rfl⟩
  simp [exec, execSmooth, hr]

theorem exec_sharpen_iff {s t : State} : exec .sharpen s = .next t ↔
    ∃ r, filterProcess .sharpening s.cfg s.stage.fSH s.ins.inSample = .ok r ∧
      t = (s.withFSH r.inst).drive { sample := r.sample, valid := r.valid } := by
  refine ⟨fun h => by simpa using exec_cases h, ?_⟩
  rintro ⟨r, hr, rfl⟩
  simp [exec, execSharpen, hr]

theorem exec_gradient_iff {s t : State} : exec .gradient s = .next t ↔
    ∃ r, filterProcess .gradientMagnitude s.cfg s.stage.fG s.ins.inSample = .ok r ∧
      t = (s.withFG r.inst).drive { sample := r.sample, valid := r.valid } := by
  refine ⟨fun h => by simpa using exec_cases h, ?_⟩
  rintro ⟨r, hr, rfl⟩
  simp [exec, execGradient, hr]

theorem exec_chain_iff {s t : State} : exec .chain s = .next t ↔
    ∃ rS, filterProcess .smoothing s.cfg s.stage.fS s.ins.inSample = .ok rS ∧
      ((rS.valid = false ∧ t = (s.withFS rS.inst).driveDraw) ∨
       (rS.valid = true ∧ ∃ rG, filterProcess .gradientMagnitude s.cfg s.stage.fG rS.sample = .ok rG ∧
        t = ((s.withFS rS.inst).withFG rG.inst).drive
          { sample := rG.sample, valid := chainValid rS.valid rG.valid })) := by
  refine ⟨fun h => by simpa using exec_cases h, ?_⟩
  rintro ⟨rS, hS, ⟨hv, rfl⟩ | ⟨hv, rG, hG, rfl⟩⟩
  · simp [exec, execChain, hS, hv]
  · simp [exec, execChain, hS, hv, hG]

/-- Settles O37: the calls an operation makes read only the instances it feeds, so they succeed alike in both states. -/
theorem outputsIgnoreOtherInstances : Obligations.OutputsIgnoreOtherInstances := by
  intro s a b
  refine ⟨fun t h => ?smooth, fun t h => ?sharpen, fun t h => ?gradient, fun t h => ?chain⟩
  case smooth =>
    obtain ⟨r, hr, rfl⟩ := exec_smooth_iff.mp h
    exact ⟨_, exec_smooth_iff.mpr ⟨r, hr, rfl⟩, rfl, rfl⟩
  case sharpen =>
    obtain ⟨r, hr, rfl⟩ := exec_sharpen_iff.mp h
    exact ⟨_, exec_sharpen_iff.mpr ⟨r, hr, rfl⟩, rfl, rfl⟩
  case gradient =>
    obtain ⟨r, hr, rfl⟩ := exec_gradient_iff.mp h
    exact ⟨_, exec_gradient_iff.mpr ⟨r, hr, rfl⟩, rfl, rfl⟩
  case chain =>
    obtain ⟨rS, hS, ⟨hv, rfl⟩ | ⟨hv, rG, hG, rfl⟩⟩ := exec_chain_iff.mp h
    · exact ⟨_, exec_chain_iff.mpr ⟨rS, hS, .inl ⟨hv, rfl⟩⟩, rfl, rfl, rfl⟩
    · exact ⟨_, exec_chain_iff.mpr ⟨rS, hS, .inr ⟨hv, rG, hG, rfl⟩⟩, rfl, rfl, rfl⟩

end Sys2Proof.Machine

/-! PROOFS. The statements about the memory and the order between cycles: the bytes of the row storage a call writes,
and that later inputs change no earlier output (20_memory.md). -/

namespace Sys2Proof.Machine

open Sys2Proof.Config (Params)

/-! ### The bytes a call leaves alone -/

/-- Storing a column touches only the addresses of its rows at its position, inside the storage or out of it. -/
theorem read_storeColumn_of_ne {prm : Params} {p a : Nat} (vs : List Sample) (i : Nat) {m : Memory}
    (h : Memory.wf prm.initFill m = true) (ha : ∀ j, i ≤ j → j < i + vs.length → a ≠ rowAddr prm j p) :
    Memory.read prm.initFill (storeColumn prm p i vs m) a = Memory.read prm.initFill m a := by
  induction vs generalizing i m with
  | nil => rfl
  | cons v vs ih =>
    simp only [List.length_cons] at ha
    have hfirst : a ≠ rowAddr prm i p := ha i (le_refl i) (by omega)
    calc Memory.read prm.initFill (storeColumn prm p (i + 1) vs (memWrite prm m i p v)) a
        = Memory.read prm.initFill (memWrite prm m i p v) a :=
          ih (i + 1) (wf_memWrite i p v h) fun j hj hlt => ha j (by omega) (by omega)
      _ = Memory.read prm.initFill m a := by rw [memWrite, Memory.read_write _ _ v h, if_neg hfirst]

/-- A call writes at its cursor only, one byte in each of the K − 1 rows (R51). -/
theorem read_rowHistoryStored_of_ne {k : Nat} {prm : Params} {rh : RowHistory} {a : Nat} (x : Sample)
    (h : Memory.wf prm.initFill rh.rows = true) (ha : ∀ i, i + 1 < k → a ≠ rowAddr prm i rh.cursor) :
    Memory.read prm.initFill (rowHistoryStored k prm rh x) a = Memory.read prm.initFill rh.rows a := by
  refine read_storeColumn_of_ne _ 0 h fun i _ hi => ha i ?_
  rw [rowHistoryColumn_length] at hi
  omega

/-- Settles O36: the column a call stores has two bytes, both at the cursor; at K = 3 row 0 takes row 1's byte and row 1
the input. -/
theorem rowStorageFrame : Obligations.RowStorageFrame := by
  intro red prm f x r hwf h
  obtain ⟨hc, -, -, hinst⟩ := filterProcess_cases h
  have hrows : r.inst.rh.rows = rowHistoryStored 3 prm f.rh x := by rw [hinst, instAfter]
  rw [hrows]
  refine ⟨fun a h0 h1 => read_rowHistoryStored_of_ne x hwf fun i hi => ?frame, ?row0, ?row1⟩
  case frame =>
    obtain rfl | rfl : i = 0 ∨ i = 1 := by omega
    · exact h0
    · exact h1
  case row0 => simpa [memRead] using memRead_rowHistoryStored (k := 3) (x := x) (i := 0) hc hc hwf
  case row1 => simpa [memRead] using memRead_rowHistoryStored (k := 3) (x := x) (i := 1) hc hc hwf

/-! ### The edges the host has yet to drive -/

/-- The outcome with another list of edges to come; a stop stays as it is. -/
@[simp] def relist (es : List Edge) : Host.Outcome State Fault Refusal → Host.Outcome State Fault Refusal
  | .next t => .next (t.listing es)
  | .fault e => .fault e
  | .refused r => .refused r

/-- An operation reads nothing of the edges to come. -/
theorem exec_listing (i : Instr) (s : State) (es : List Edge) : exec i (s.listing es) = relist es (exec i s) := by
  cases i with
  | bypass => rfl
  | smooth =>
    simp only [exec, execSmooth, State.listing_cfg, State.listing_stage, State.listing_ins]
    cases filterProcess .smoothing s.cfg s.stage.fS s.ins.inSample <;> rfl
  | sharpen =>
    simp only [exec, execSharpen, State.listing_cfg, State.listing_stage, State.listing_ins]
    cases filterProcess .sharpening s.cfg s.stage.fSH s.ins.inSample <;> rfl
  | gradient =>
    simp only [exec, execGradient, State.listing_cfg, State.listing_stage, State.listing_ins]
    cases filterProcess .gradientMagnitude s.cfg s.stage.fG s.ins.inSample <;> rfl
  | chain =>
    simp only [exec, execChain, State.listing_cfg, State.listing_stage, State.listing_ins]
    cases filterProcess .smoothing s.cfg s.stage.fS s.ins.inSample with
    | error e => rfl
    | ok rS =>
      obtain ⟨sample, valid, instS⟩ := rS
      cases valid with
      | false => rfl
      | true =>
        simp only [if_true]
        cases filterProcess .gradientMagnitude s.cfg s.stage.fG sample <;> rfl
  | reserved101 => rfl
  | reserved110 => rfl
  | reserved111 => rfl

theorem resetEdge_listing (s : State) (es : List Edge) : resetEdge (s.listing es) = relist es (resetEdge s) := by
  simp only [resetEdge, State.listing_cfg, State.listing_ins]
  cases configRefusal s.cfg s.ins.cfgMode <;> rfl

theorem cycleEdge_listing (s : State) (es : List Edge) : cycleEdge (s.listing es) = relist es (cycleEdge s) := by
  have hrefusal : cycleRefusal (s.listing es) = cycleRefusal s := rfl
  simp only [cycleEdge, hrefusal, State.listing_stage, exec_listing]
  cases cycleRefusal s <;> rfl

/-- A clock edge reads its own input ports and nothing of the edges to come (R59). -/
theorem clockEdge_listing (s : State) (es : List Edge) : clockEdge (s.listing es) = relist es (clockEdge s) := by
  simp only [clockEdge, State.listing_ins, resetEdge_listing, cycleEdge_listing]
  cases s.ins.rst <;> rfl

/-- A step on a listed edge is the clock edge with those ports, and leaves the rest of the list. -/
theorem step_listing_cons (s : State) (e : Edge) (rest : List Edge) :
    step (s.listing (e :: rest)) = relist rest (clockEdge { s with ins := e }) :=
  clockEdge_listing { s with ins := e } rest

/-- Settles O43, by induction on the first edges, from every state: the next clock edge is the same under both lists,
and the induction speaks of the state it leaves, which holds the rest of either list. -/
theorem outputsAreCausal : Obligations.OutputsAreCausal := by
  intro s es later later'
  induction es generalizing s with
  | nil => rfl
  | cons e es ih =>
    cases hedge : clockEdge { s with ins := e } with
    | next t => simp [trace, step_listing_cons, hedge, ih t]
    | fault r => simp [trace, step_listing_cons, hedge]
    | refused r => simp [trace, step_listing_cons, hedge]

end Sys2Proof.Machine

/-! PROOFS. The statements about the encoding: the mode field, the edge that loads it and the edges that run it, a
placed table word, and a stream program as clock edges (30_encoding.md). -/

namespace Sys2Proof

/-! ### The mode field -/

/-- The laws of each constructor, gathered over all of them. -/
theorem modeValue_law (i : Instr) : Laws.ModeValue.Statement i := by
  cases i with
  | bypass => exact Laws.ModeValue.bypass
  | smooth => exact Laws.ModeValue.smooth
  | sharpen => exact Laws.ModeValue.sharpen
  | gradient => exact Laws.ModeValue.gradient
  | chain => exact Laws.ModeValue.chain
  | reserved101 => exact Laws.ModeValue.reserved101
  | reserved110 => exact Laws.ModeValue.reserved110
  | reserved111 => exact Laws.ModeValue.reserved111

@[simp] theorem decode_encode (i : Instr) : decode (encode i) = i := (modeValue_law i).1

/-- The eight rows of R72's table leave no value of the field over. -/
@[simp] theorem encode_decode (bits : ModeBits) : encode (decode bits) = bits := by
  revert bits; decide

/-- Settles O1: each tabled value is the encoding of its row. -/
theorem modeValuesDecodeAsTabled : Obligations.ModeValuesDecodeAsTabled :=
  ⟨decode_encode .bypass, decode_encode .smooth, decode_encode .sharpen, decode_encode .gradient,
    decode_encode .chain, decode_encode .reserved101, decode_encode .reserved110, decode_encode .reserved111⟩

/-- Settles O2: one law per constructor the one way, one per value of the field the other. -/
theorem decodeEncodeAgree : Obligations.DecodeEncodeAgree := ⟨decode_encode, encode_decode⟩

/-! ### A stream program as edges -/

theorem streamEdges_length (bits : ModeBits) (xs : List Sample) : (streamEdges bits xs).length = xs.length + 1 := by
  simp [streamEdges]

/-- After the reset edge, edge n is the cycle that feeds sample n. -/
theorem streamEdges_getElem?_succ (bits : ModeBits) (xs : List Sample) (n : Nat) :
    (streamEdges bits xs)[n + 1]? = xs[n]?.map (cycleEdgeOf bits) := by
  simp [streamEdges]

theorem StreamProgram.samples_length (prog : StreamProgram) :
    prog.samples.length = prog.feed.length + prog.flush := by
  simp [StreamProgram.samples]

theorem StreamProgram.samples_getElem?_fed (prog : StreamProgram) {n : Nat} (h : n < prog.feed.length) :
    prog.samples[n]? = some (prog.feed.getD n 0) := by
  rw [StreamProgram.samples, List.getElem?_append_left h, List.getElem?_eq_getElem h, List.getD_eq_getElem _ _ h]

/-- The reference flush value is 0 (R80, R188). -/
theorem StreamProgram.samples_getElem?_flushed (prog : StreamProgram) {n : Nat} (h : n < prog.flush) :
    prog.samples[prog.feed.length + n]? = some 0 := by
  simp [StreamProgram.samples, h]

/-- Settles O5: the edges after the reset edge follow the samples, first the fed ones, then the flush zeros. -/
theorem streamProgramEncoding : Obligations.StreamProgramEncoding := by
  intro prog
  refine ⟨?length, ⟨_, _, rfl, rfl, rfl⟩, fun n hn => ?fed, fun n hn => ?flushed⟩
  case length =>
    rw [StreamProgram.edges, streamEdges_length, prog.samples_length]
    omega
  case fed =>
    rw [StreamProgram.edges, streamEdges_getElem?_succ, prog.samples_getElem?_fed hn]
    rfl
  case flushed =>
    rw [StreamProgram.edges, Nat.add_assoc, Nat.add_comm 1, streamEdges_getElem?_succ,
      prog.samples_getElem?_flushed hn]
    rfl

end Sys2Proof

namespace Sys2Proof.Machine

/-! ### The edge a step takes -/

/-- A step whose ports carry `rst = 1` is a reset edge (R168). -/
theorem step_of_present_reset {s : State} (hr : s.present.ins.rst = true) : step s = resetEdge s.present := if_pos hr

/-- A step whose ports carry `rst = 0` is a cycle. -/
theorem step_of_present_cycle {s : State} (hr : s.present.ins.rst = false) : step s = cycleEdge s.present := by
  simp [step, clockEdge, hr]

/-- A cycle on which `cfg_mode` has moved is refused, for that or, first, for its parameters (log 11, log 13). -/
theorem cycleEdge_refused_of_mode_moved {s : State} (hne : s.ins.cfgMode ≠ s.stage.mode) :
    ∃ r, cycleEdge s = .refused r := by
  cases hp : paramsRefusal s.cfg with
  | some r => exact ⟨r, by simp [cycleEdge, cycleRefusal, hp]⟩
  | none => exact ⟨.modeChangeMidStream, by simp [cycleEdge, cycleRefusal, hp, hne]⟩

/-! ### What loads the mode register -/

/-- A reset edge leaves the mode it sampled. -/
theorem resetEdge_mode {s t : State} (h : resetEdge s = .next t) : t.stage.mode = s.ins.cfgMode := by
  obtain ⟨-, -, rfl⟩ := resetEdge_cases h
  rfl

theorem cycleEdge_mode {s t : State} (h : cycleEdge s = .next t) : t.stage.mode = s.stage.mode := by
  obtain ⟨-, -, hexec⟩ := cycleEdge_cases h
  obtain ⟨-, hmode, -⟩ := exec_frame hexec
  exact hmode

/-- Settles O14: a reset edge constructs with the sampled mode, no operation writes it, and a cycle checks it. -/
theorem modeChangesOnlyByReset : Obligations.ModeChangesOnlyByReset := by
  refine fun s => ⟨fun t h => ⟨fun hr => ?reset, fun hr => ?cycle⟩, fun hr hne => ?moved⟩
  case reset =>
    rw [step_of_present_reset hr] at h
    exact resetEdge_mode h
  case cycle =>
    rw [step_of_present_cycle hr] at h
    rw [cycleEdge_mode h, State.present_stage]
  case moved =>
    rw [step_of_present_cycle hr]
    exact cycleEdge_refused_of_mode_moved (by rwa [State.present_stage])

/-! ### What a cycle runs -/

/-- A cycle under well-formed parameters that leaves `cfg_mode` at the mode runs the operation the mode selects. -/
theorem step_runs_mode {s : State} (hp : s.cfg.wf = true) (hr : s.present.ins.rst = false)
    (hm : s.present.ins.cfgMode = s.stage.mode) : step s = exec (decode s.stage.mode) s.present := by
  have hrun := cycleEdge_exec (s := s.present) (by rwa [State.present_cfg]) (by rwa [State.present_stage])
  rwa [← step_of_present_cycle hr, State.present_stage] at hrun

/-- Past the listed edges the ports carry a cycle at the mode with a free sample (log 4, log 5). -/
theorem State.present_of_pending_nil {s : State} (h : s.pending = []) :
    s.present =
      { s with
        ins := { rst := false, cfgMode := s.stage.mode, inSample := Config.freeSample s.draws }
        draws := s.draws + 1 } := by
  simp [State.present, h]

/-- Settles O3: the ports of the step, listed or not, carry a cycle at the mode. -/
theorem stepRunsDecodedInstruction : Obligations.StepRunsDecodedInstruction := by
  refine fun s hp => ⟨fun e rest hpend hr hm => ?listed, fun hpend => ?unlisted⟩
  case listed =>
    have hports := State.present_cons s e rest hpend
    rw [step_runs_mode hp (by rwa [hports]) (by rwa [hports]), hports]
  case unlisted =>
    have hports := State.present_of_pending_nil hpend
    rw [step_runs_mode hp (by rw [hports]) (by rw [hports]), hports]

/-- Settles O4: the placed word is the mode, and the edge listed before all others is a cycle at it. -/
theorem fetchWordRunsTableInstruction : Obligations.FetchWordRunsTableInstruction :=
  fun s _ w hp => ⟨decode (modeField w), rfl, step_runs_mode (s := s.placeModeWord w) hp rfl rfl⟩

end Sys2Proof.Machine

/-! PROOFS. The statements about RowHistory, for every kernel size: one call, the readiness predicate, and the columns of
a stream in closed form (40_row_history.md). -/

namespace Sys2Proof.Machine

open Sys2Proof.Config (Params)

/-! ### One call -/

/-- The RowHistory a successful call leaves. -/
def rowHistoryAfter (k : Nat) (prm : Params) (rh : RowHistory) (x : Sample) : RowHistory where
  rows := rowHistoryStored k prm rh x
  cursor := cursorNext prm rh.cursor
  completed := completedNext k prm rh

theorem rowHistoryAdvance_eq_after {k : Nat} {prm : Params} {rh : RowHistory} {x : Sample} (h : rh.cursor < prm.w) :
    rowHistoryAdvance k prm rh x = .ok (rowHistoryColumn k prm rh x, rowHistoryAfter k prm rh x) :=
  rowHistoryAdvance_ok h

/-- Inversion: a call that succeeds had its cursor in range. -/
theorem rowHistoryAdvance_cases {k : Nat} {prm : Params} {rh rh' : RowHistory} {x : Sample} {column : Vector Sample k}
    (h : rowHistoryAdvance k prm rh x = .ok (column, rh')) :
    rh.cursor < prm.w ∧ column = rowHistoryColumn k prm rh x ∧ rh' = rowHistoryAfter k prm rh x := by
  by_cases hc : rh.cursor < prm.w
  · rw [rowHistoryAdvance_eq_after hc] at h
    cases h
    exact ⟨hc, rfl, rfl⟩
  · rw [rowHistoryAdvance_error hc] at h
    cases h

/-- Row i at the cursor takes the column's element i + 1, every other element is kept (R51, R100). -/
theorem memRead_rowHistoryAfter {k : Nat} {prm : Params} {rh : RowHistory} {x : Sample} {i p : Nat}
    (hc : rh.cursor < prm.w) (hp : p < prm.w) (hwf : Memory.wf prm.initFill rh.rows = true) (hi : i + 1 < k) :
    memRead prm (rowHistoryAfter k prm rh x).rows i p =
      if p = rh.cursor then (rowHistoryColumn k prm rh x)[i + 1] else memRead prm rh.rows i p := by
  rw [rowHistoryColumn_get, rowHistoryAfter, memRead_rowHistoryStored hc hp hwf]
  simp only [hi, and_true]

/-- Settles O16: the model's laws of the column and of the storage; the counters are their own definitions. -/
theorem rowHistoryAdvance_law : Obligations.RowHistoryAdvance := by
  intro k prm rh x _ hc hwf
  refine ⟨_, _, rowHistoryAdvance_eq_after hc, fun i hi => ?column, fun i p hi hp => ?rows, rfl, rfl⟩
  case column => exact rowHistoryColumn_get prm rh x i hi
  case rows => exact memRead_rowHistoryAfter hc hp hwf hi

/-! ### Readiness -/

/-- R101. -/
theorem rowHistoryReady_iff {k : Nat} {rh : RowHistory} : rowHistoryReady k rh = true ↔ k - 1 ≤ rh.completed :=
  decide_eq_true_iff

/-- The saturating count neither decreases nor passes K (R24). -/
theorem completedNext_bounds {k : Nat} (prm : Params) {rh : RowHistory} (h : rh.completed ≤ k) :
    rh.completed ≤ completedNext k prm rh ∧ completedNext k prm rh ≤ k := by
  unfold completedNext
  split <;> omega

/-- Settles O17: readiness is a lower bound on a count that does not decrease. -/
theorem readinessIsMonotone : Obligations.ReadinessIsMonotone := by
  intro k prm rh rh' x column h hk
  obtain ⟨-, -, rfl⟩ := rowHistoryAdvance_cases h
  obtain ⟨hle, hbound⟩ := completedNext_bounds prm hk
  refine ⟨rowHistoryReady_iff, hle, hbound, fun hready => ?_⟩
  exact rowHistoryReady_iff.mpr ((rowHistoryReady_iff.mp hready).trans hle)

/-! ### The columns of a stream -/

/-- The sample R102 gives element i of the column of call n: the one fed K − 1 − i whole rows before call n. -/
def columnSample (k : Nat) (prm : Params) (s : Int → Sample) (n i : Nat) : Sample :=
  s ((n : Int) - ((k : Int) - 1 - (i : Int)) * (prm.w : Int))

/-- A row later, a sample stands one element further from the newest. -/
theorem columnSample_add_width (k : Nat) (prm : Params) (s : Int → Sample) (n i : Nat) :
    columnSample k prm s (n + prm.w) i = columnSample k prm s n (i + 1) := by
  unfold columnSample
  congr 1
  push_cast
  ring

/-- The last element of a column is the sample just fed. -/
theorem columnSample_newest {k i : Nat} (prm : Params) (s : Int → Sample) (n : Nat) (h : i + 1 = k) :
    columnSample k prm s n i = s n := by
  subst h
  simp [columnSample]

/-- In the first W calls every element but the last is from before the stream. -/
theorem columnSample_before_stream {k i n : Nat} {prm : Params} {s : Int → Sample} {fill : Sample}
    (hs : ∀ m < 0, s m = fill) (hi : i + 1 < k) (hn : n < prm.w) : columnSample k prm s n i = fill := by
  refine hs _ ?_
  have hrow : (1 : Int) * prm.w ≤ ((k : Int) - 1 - (i : Int)) * prm.w :=
    mul_le_mul_of_nonneg_right (by omega) (by omega)
  omega

/-- What a RowHistory holds after n calls of the stream s: the counters of R29, and, at the position of each of the next
W calls, what the column of that call will read (R102, the storage as FIFOs of whole rows). -/
structure RowHistory.HoldsAfter (k : Nat) (prm : Params) (s : Int → Sample) (n : Nat) (rh : RowHistory) : Prop where
  cursor : rh.cursor = n % prm.w
  completed : rh.completed = min (n / prm.w) k
  wf : Memory.wf prm.initFill rh.rows = true
  rows : ∀ i m, i + 1 < k → n ≤ m → m < n + prm.w → memRead prm rh.rows i (m % prm.w) = columnSample k prm s m i

theorem RowHistory.HoldsAfter.cursor_lt {k n : Nat} {prm : Params} {s : Int → Sample} {rh : RowHistory}
    (h : rh.HoldsAfter k prm s n) (hw : 0 < prm.w) : rh.cursor < prm.w := by
  rw [h.cursor]
  exact Nat.mod_lt n hw

theorem constructInst_holdsAfter (k : Nat) (prm : Params) {s : Int → Sample} (hs : ∀ m < 0, s m = prm.initFill) :
    (constructInst prm).rh.HoldsAfter k prm s 0 where
  cursor := (Nat.zero_mod _).symm
  completed := by simp [constructInst]
  wf := rfl
  rows i m hi _ hm := (columnSample_before_stream hs hi (by omega)).symm

/-- The column of call n. -/
theorem RowHistory.HoldsAfter.column_get {k n : Nat} {prm : Params} {s : Int → Sample} {rh : RowHistory}
    (h : rh.HoldsAfter k prm s n) (hw : 0 < prm.w) (i : Nat) (hi : i < k) :
    (rowHistoryColumn k prm rh (s n))[i] = columnSample k prm s n i := by
  rw [rowHistoryColumn_get]
  split_ifs with hstored
  · rw [h.cursor]
    exact h.rows i n hstored (le_refl n) (by omega)
  · exact (columnSample_newest prm s n (by omega)).symm

theorem cursorNext_mod {prm : Params} (hw : 0 < prm.w) (n : Nat) :
    cursorNext prm (n % prm.w) = (n + 1) % prm.w := by
  unfold cursorNext
  split_ifs with hlast
  · exact (div_mod_succ_of_last hw hlast).2.symm
  · exact (div_mod_succ_of_not_last hw hlast).2.symm

theorem RowHistory.HoldsAfter.completedNext_eq {k n : Nat} {prm : Params} {s : Int → Sample} {rh : RowHistory}
    (h : rh.HoldsAfter k prm s n) (hw : 0 < prm.w) : completedNext k prm rh = min ((n + 1) / prm.w) k := by
  unfold completedNext
  rw [h.cursor, h.completed]
  split_ifs with hlast
  · rw [(div_mod_succ_of_last hw hlast).1]
    omega
  · rw [(div_mod_succ_of_not_last hw hlast).1]

/-- Two calls less than a row apart are at different positions. -/
theorem mod_ne_mod_of_lt_add {n m w : Nat} (hlt : n < m) (hm : m < n + w) : m % w ≠ n % w := by
  intro h
  have hdvd : w ∣ m - n := (Nat.modEq_iff_dvd' hlt.le).mp h.symm
  exact Nat.not_dvd_of_pos_of_lt (by omega) (by omega) hdvd

/-- A call feeds sample n: it stores at the cursor what call n + W will read there, and keeps what the calls before that
one will read. -/
theorem RowHistory.HoldsAfter.next {k n : Nat} {prm : Params} {s : Int → Sample} {rh : RowHistory}
    (h : rh.HoldsAfter k prm s n) (hw : 0 < prm.w) :
    (rowHistoryAfter k prm rh (s n)).HoldsAfter k prm s (n + 1) where
  cursor := by rw [rowHistoryAfter, h.cursor, cursorNext_mod hw]
  completed := h.completedNext_eq hw
  wf := wf_rowHistoryStored (s n) h.wf
  rows i m hi hn hm := by
    rw [memRead_rowHistoryAfter (h.cursor_lt hw) (Nat.mod_lt m hw) h.wf hi, h.cursor]
    obtain rfl | hlt : m = n + prm.w ∨ m < n + prm.w := by omega
    · rw [if_pos (Nat.add_mod_right n prm.w), h.column_get hw, columnSample_add_width]
    · rw [if_neg (mod_ne_mod_of_lt_add hn hlt), h.rows i m hi (by omega) hlt]

theorem rowHistoryFeed_cons {k : Nat} {prm : Params} {rh last : RowHistory} {x : Sample} {xs : List Sample}
    {columns : List (Vector Sample k)} (hc : rh.cursor < prm.w)
    (h : rowHistoryFeed k prm (rowHistoryAfter k prm rh x) xs = .ok (columns, last)) :
    rowHistoryFeed k prm rh (x :: xs) = .ok (rowHistoryColumn k prm rh x :: columns, last) := by
  simp [rowHistoryFeed, rowHistoryAdvance_eq_after hc, h]

/-- Feeding the samples of s from number n on completes from any RowHistory that holds the n before. -/
theorem rowHistoryFeed_holdsAfter {k : Nat} {prm : Params} {s : Int → Sample} (hw : 0 < prm.w) (xs : List Sample) :
    ∀ (n : Nat) (rh : RowHistory), rh.HoldsAfter k prm s n →
      (∀ j, (hj : j < xs.length) → xs[j] = s ((n + j : Nat) : Int)) →
      ∃ columns last, rowHistoryFeed k prm rh xs = .ok (columns, last) ∧ columns.length = xs.length ∧
        (∀ j i, (hj : j < columns.length) → (hi : i < k) → columns[j][i] = columnSample k prm s (n + j) i) ∧
        last.HoldsAfter k prm s (n + xs.length) := by
  induction xs with
  | nil => exact fun n rh h _ => ⟨[], rh, rfl, rfl, fun j i hj => absurd hj (Nat.not_lt_zero j), h⟩
  | cons x xs ih =>
    intro n rh h hxs
    obtain rfl : x = s n := hxs 0 (Nat.succ_pos _)
    have hrest : ∀ j, (hj : j < xs.length) → xs[j] = s ((n + 1 + j : Nat) : Int) := fun j hj => by
      rw [Nat.add_right_comm]
      exact hxs (j + 1) (Nat.succ_lt_succ hj)
    obtain ⟨columns, last, hfeed, hlen, hcols, hlast⟩ := ih (n + 1) _ (h.next hw) hrest
    refine ⟨_, last, rowHistoryFeed_cons (h.cursor_lt hw) hfeed, congrArg (· + 1) hlen, fun j i hj hi => ?_, ?_⟩
    · cases j with
      | zero => exact h.column_get hw i hi
      | succ j =>
        rw [← Nat.add_assoc, Nat.add_right_comm]
        exact hcols j i (Nat.lt_of_succ_lt_succ hj) hi
    · rwa [List.length_cons, Nat.add_comm xs.length, ← Nat.add_assoc]

theorem streamAt_of_neg {fill : Sample} {xs : List Sample} {m : Int} (h : m < 0) : streamAt fill xs m = fill :=
  if_pos h

theorem streamAt_of_lt_length {fill : Sample} {xs : List Sample} {n : Nat} (h : n < xs.length) :
    streamAt fill xs n = xs[n] := by
  simp [streamAt, h]

/-- Settles O18, by induction on the stream from a RowHistory that has been called n times. -/
theorem rowHistoryColumnClosedForm : Obligations.RowHistoryColumnClosedForm := by
  intro k prm xs _ hw
  have hstart : (constructInst prm).rh.HoldsAfter k prm (streamAt prm.initFill xs) 0 :=
    constructInst_holdsAfter k prm fun m hm => streamAt_of_neg hm
  obtain ⟨columns, last, hfeed, hlen, hcols, hlast⟩ :=
    rowHistoryFeed_holdsAfter hw xs 0 _ hstart fun j hj => by rw [Nat.zero_add, streamAt_of_lt_length hj]
  rw [Nat.zero_add] at hlast
  refine ⟨columns, last, hfeed, hlen, fun n i hn hi => ?_, hlast.cursor, hlast.completed⟩
  rw [hcols n i hn hi, Nat.zero_add, columnSample]

end Sys2Proof.Machine

/-! PROOFS. The statements about SlidingWindow: one shift, the age of a column, the window of an instance and the outputs
of the filter modes in closed form, and which reset contents reach an output (41_sliding_window.md). -/

namespace Sys2Proof.Machine

open Sys2Proof.Config (Params)

/-! ### One shift, and many -/

/-- Settles O19: the model's law of the shifted window, at each of its two kinds of columns. -/
theorem windowShift_law : Obligations.WindowShift := by
  intro k sw column i j
  have hget := windowShift_get sw column i j i.isLt j.isLt
  refine ⟨fun h => ?moved, fun h => ?inserted⟩
  case moved => exact hget.trans (dif_pos h)
  case inserted => exact hget.trans (dif_neg (by omega))

theorem windowFeed_cons {k : Nat} (sw : SlidingWindow k) (column : Vector Sample k) (columns : List (Vector Sample k)) :
    windowFeed k sw (column :: columns) = windowFeed k (windowShift k sw column) columns := rfl

/-- Settles O20, by induction on the columns from any window: the first shift moves what the rest of them find one place
left, or is the one that inserted it. -/
theorem windowColumnAge : Obligations.WindowColumnAge := by
  intro k sw columns i j hi hj
  induction columns generalizing sw with
  | nil => exact ⟨fun _ => rfl, fun h => absurd hj (Nat.not_lt.mpr h)⟩
  | cons column columns ih =>
    obtain ⟨hheld, hinserted⟩ := ih (windowShift k sw column)
    simp only [windowFeed_cons, List.length_cons, ← Nat.add_assoc]
    refine ⟨fun h => ?held, fun h => ?inserted⟩
    case held => rw [hheld (by omega), windowShift_get, dif_pos h]
    case inserted =>
      by_cases hfirst : j + columns.length + 1 = k
      · rw [hheld (by omega), windowShift_get, dif_neg (by omega)]
        simp [hfirst]
      · have hindex : j + columns.length + 1 - k = j + columns.length - k + 1 := by omega
        rw [hinserted (by omega)]
        simp [hindex]

/-! ### The window of an instance in closed form -/

theorem SlidingWindow.eq_of_get {k : Nat} {a b : SlidingWindow k}
    (h : ∀ i j, (hi : i < k) → (hj : j < k) → (a.win[i])[j] = (b.win[i])[j]) : a = b := by
  have hwin : a.win = b.win := Vector.ext fun i hi => Vector.ext fun j hj => h i j hi hj
  cases a
  cases b
  cases hwin
  rfl

theorem constructInst_window_get (prm : Params) (i j : Nat) (hi : i < 3) (hj : j < 3) :
    ((constructInst prm).sw.win[i])[j] = prm.winInit := by
  simp [constructInst]

/-- Element (i, j) of the window of R113: of the column of call n − (2−j), where there was such a call. -/
theorem windowAt_get (prm : Params) (xs : List Sample) (n i j : Nat) (hi : i < 3) (hj : j < 3) :
    ((windowAt prm xs n).win[i])[j] =
      if j + (n + 1) < 3 then prm.winInit
      else columnSample 3 prm (streamAt prm.initFill xs) (j + (n + 1) - 3) i := by
  have hbefore : (n : Int) - (2 - (j : Int)) < 0 ↔ j + (n + 1) < 3 := by omega
  simp only [windowAt, Vector.getElem_ofFn, hbefore]
  split_ifs with h
  · rfl
  · have hcall : (n : Int) - (2 - (j : Int)) = ((j + (n + 1) - 3 : Nat) : Int) := by omega
    rw [columnSample, hcall]
    norm_num

/-- The columns of R102, shifted into the constructed window up to that of call n, make the window of R113. -/
theorem windowFeed_eq_windowAt {prm : Params} {xs : List Sample} {columns : List (Vector Sample 3)}
    (hcols : ∀ m i, (hm : m < columns.length) → (hi : i < 3) →
      columns[m][i] = columnSample 3 prm (streamAt prm.initFill xs) m i)
    {n : Nat} (hn : n < columns.length) :
    windowFeed 3 (constructInst prm).sw (columns.take (n + 1)) = windowAt prm xs n := by
  refine SlidingWindow.eq_of_get fun i j hi hj => ?_
  have hlen : (columns.take (n + 1)).length = n + 1 := List.length_take_of_le hn
  obtain ⟨hheld, hinserted⟩ := windowColumnAge 3 (constructInst prm).sw (columns.take (n + 1)) i j hi hj
  simp only [hlen] at hheld hinserted
  rw [windowAt_get prm xs n i j hi hj]
  split_ifs with h
  · rw [hheld h, constructInst_window_get]
  · rw [hinserted (by omega)]
    simp only [List.getElem_take]
    exact hcols _ i _ hi

/-- Valid counts two rows of calls (R122, R125). -/
theorem filterValid_of_countersAt {prm : Params} (hw : 0 < prm.w) {n : Nat} {f : FilterInst} (h : f.CountersAt prm n) :
    filterValid f = decide (2 * prm.w ≤ n) := by
  obtain ⟨-, -, hy, hcompleted⟩ := h
  rw [Bool.eq_iff_iff, filterValid_iff, decide_eq_true_iff, hy, hcompleted, ← Nat.le_div_iff_mul_le hw]
  omega

/-- An instance fed a stream shifts in the columns its RowHistory returns; each call's output is the reduction of the
window after it, and its validity that of the calls counted. -/
theorem instFeed_of_columns (red : Reduction) {prm : Params} (hw : 0 < prm.w) (xs : List Sample) :
    ∀ (n : Nat) (f : FilterInst), f.CountersAt prm n →
      ∃ columns rh outs last, rowHistoryFeed 3 prm f.rh xs = .ok (columns, rh) ∧
        instFeed red prm f xs = .ok (outs, last) ∧ outs.length = xs.length ∧ last.sw = windowFeed 3 f.sw columns ∧
        ∀ j, (hj : j < outs.length) →
          outs[j] = { sample := reduce red prm (windowFeed 3 f.sw (columns.take (j + 1)))
                      valid := decide (2 * prm.w ≤ n + j + 1) } := by
  induction xs with
  | nil => exact fun n f _ => ⟨[], f.rh, [], f, rfl, rfl, rfl, rfl, fun j hj => absurd hj (Nat.not_lt_zero j)⟩
  | cons x xs ih =>
    intro n f hf
    have hc : f.rh.cursor < prm.w := hf.cursor_lt hw
    have hnext := instAfter_countersAt hw x hf
    obtain ⟨columns, rh, outs, last, hcolumns, hfeed, hlen, hwindow, houts⟩ := ih (n + 1) _ hnext
    refine ⟨_, rh, _, last, rowHistoryFeed_cons hc hcolumns, instFeed_cons hc hfeed, congrArg (· + 1) hlen, hwindow, ?_⟩
    intro j hj
    cases j with
    | zero => rw [List.getElem_cons_zero, filterValid_of_countersAt hw hnext]; rfl
    | succ j =>
      rw [List.getElem_cons_succ, houts j (Nat.lt_of_succ_lt_succ hj), Nat.add_right_comm n 1 j]
      rfl

/-- Settles O30: the columns of R102, the age R112 gives them in the window, and the calls counted. -/
theorem instanceOutputClosedForm : Obligations.InstanceOutputClosedForm := by
  intro red prm xs hw3
  have hw : 0 < prm.w := by omega
  obtain ⟨columns, rh, hcolumns, hcount, hcols, -, -⟩ := rowHistoryColumnClosedForm 3 prm xs (by decide) hw
  obtain ⟨columns', rh', outs, last, hcolumns', hfeed, hlen, hwindow, houts⟩ :=
    instFeed_of_columns red hw xs 0 _ (constructInst_countersAt prm)
  obtain ⟨rfl, rfl⟩ : columns' = columns ∧ rh' = rh := by simpa using hcolumns'.symm.trans hcolumns
  refine ⟨outs, last, hfeed, hlen, fun hne => ?window, fun n hn => ?output⟩
  case window =>
    have hpos : 0 < xs.length := List.length_pos_iff.mpr hne
    rw [hwindow, ← windowFeed_eq_windowAt hcols (n := xs.length - 1) (by omega), Nat.sub_add_cancel hpos, ← hcount,
      List.take_length]
  case output =>
    have hvalid : 2 * prm.w ≤ 0 + n + 1 ↔ 2 * prm.w - 1 ≤ n := by omega
    rw [houts n hn, windowFeed_eq_windowAt hcols (by omega)]
    simp only [hvalid]

/-! ### A run of a stream from a reset edge -/

/-- The host has the cycles that feed `xs` still to drive, and they run the operation `i`. -/
structure State.Streaming (i : Instr) (xs : List Sample) (s : State) : Prop where
  params : s.cfg.wf = true
  mode : decode s.stage.mode = i
  pending : s.pending = xs.map (cycleEdgeOf s.stage.mode)

theorem State.Streaming.present_ins {i : Instr} {x : Sample} {xs : List Sample} {s : State}
    (h : s.Streaming i (x :: xs)) : s.present.ins = cycleEdgeOf s.stage.mode x := by
  rw [State.present_cons s _ _ h.pending]

/-- The next step runs `i` on the next sample. -/
theorem State.Streaming.step_eq {i : Instr} {x : Sample} {xs : List Sample} {s : State}
    (h : s.Streaming i (x :: xs)) : step s = exec i s.present := by
  rw [step_runs_mode h.params (by rw [h.present_ins]; rfl) (by rw [h.present_ins]; rfl), h.mode]

/-- The operation leaves the rest of the cycles. -/
theorem State.Streaming.next {i : Instr} {x : Sample} {xs : List Sample} {s t : State}
    (h : s.Streaming i (x :: xs)) (hexec : exec i s.present = .next t) : t.Streaming i xs := by
  obtain ⟨hcfg, hmode, hpend⟩ := exec_frame hexec
  rw [State.present_cfg] at hcfg
  rw [State.present_stage] at hmode
  rw [State.present_pending, h.pending] at hpend
  exact ⟨hcfg ▸ h.params, hmode ▸ h.mode, hmode ▸ hpend⟩

theorem State.Streaming.trace_cons {i : Instr} {x : Sample} {xs : List Sample} {s t : State}
    (h : s.Streaming i (x :: xs)) (hexec : exec i s.present = .next t) :
    trace (x :: xs).length s = t.out :: trace xs.length t :=
  trace_succ (h.step_eq.trans hexec)

/-- The reset edge of a stream constructs the Stage, whatever state it meets, and leaves the cycles (R180, R184). -/
theorem trace_streamEdges {s : State} {i : Instr} (hp : s.cfg.wf = true) (hi : i.wf = true) (xs : List Sample) :
    ∃ t, trace (xs.length + 1) (s.listing (streamEdges (encode i) xs)) = t.out :: trace xs.length t ∧
      t.out.valid = false ∧ t.cfg = s.cfg ∧ t.stage = constructStage s.cfg (encode i) ∧ t.Streaming i xs := by
  have hreset := (step_of_reset_listed (s := s.listing (streamEdges (encode i) xs)) rfl rfl).trans
    (resetEdge_next hp (by simpa [resetEdgeOf] using hi))
  exact ⟨_, trace_succ hreset, rfl, rfl, rfl, hp, decode_encode i, rfl⟩

theorem trace_length_le (n : Nat) (s : State) : (trace n s).length ≤ n := by
  induction n generalizing s with
  | zero => exact le_refl 0
  | succ n ih =>
    unfold trace
    cases step s with
    | next t => exact Nat.succ_le_succ (ih t)
    | fault e => exact Nat.zero_le _
    | refused r => exact Nat.zero_le _

/-- NONE shows the samples themselves (R141). -/
theorem trace_bypass (xs : List Sample) :
    ∀ s : State, s.Streaming .bypass xs → trace xs.length s = xs.map fun x => { sample := x, valid := true } := by
  induction xs with
  | nil => exact fun _ _ => rfl
  | cons x xs ih =>
    intro s h
    have hexec : exec .bypass s.present = .next (s.present.drive { sample := x, valid := true }) := by
      rw [exec, execBypass, h.present_ins]
      rfl
    rw [h.trace_cons hexec, ih _ (h.next hexec)]
    rfl

/-! ### The mode of one instance -/

/-- The mode that runs one instance alone (R142 to R144). -/
def Reduction.mode : Reduction → Instr
  | .smoothing => .smooth
  | .sharpening => .sharpen
  | .gradientMagnitude => .gradient

/-- The instance with this reduction (R21, R124). -/
def Stage.inst (st : Stage) : Reduction → FilterInst
  | .smoothing => st.fS
  | .sharpening => st.fSH
  | .gradientMagnitude => st.fG

theorem Reduction.mode_wf (red : Reduction) : red.mode.wf = true := by
  cases red <;> rfl

theorem constructStage_inst (prm : Params) (bits : ModeBits) (red : Reduction) :
    (constructStage prm bits).inst red = constructInst prm := by
  cases red <;> rfl

/-- A filter mode makes one call of its instance and shows what it returns (R142 to R144). -/
theorem exec_filterMode {red : Reduction} {s : State} {r : Processed}
    (h : filterProcess red s.cfg (s.stage.inst red) s.ins.inSample = .ok r) :
    ∃ t, exec red.mode s = .next t ∧ t.stage.inst red = r.inst ∧
      t.out = { sample := r.sample, valid := r.valid } := by
  cases red with
  | smoothing => exact ⟨_, exec_smooth_iff.mpr ⟨r, h, rfl⟩, rfl, rfl⟩
  | sharpening => exact ⟨_, exec_sharpen_iff.mpr ⟨r, h, rfl⟩, rfl, rfl⟩
  | gradientMagnitude => exact ⟨_, exec_gradient_iff.mpr ⟨r, h, rfl⟩, rfl, rfl⟩

theorem instFeed_cons_cases {red : Reduction} {prm : Params} {f last : FilterInst} {x : Sample} {xs : List Sample}
    {outs : List Output} (h : instFeed red prm f (x :: xs) = .ok (outs, last)) :
    ∃ r rest, filterProcess red prm f x = .ok r ∧ instFeed red prm r.inst xs = .ok (rest, last) ∧
      outs = { sample := r.sample, valid := r.valid } :: rest := by
  unfold instFeed at h
  split at h
  · cases h
  · next r hr =>
    split at h
    · cases h
    · next rest last' hrest =>
      cases h
      exact ⟨r, rest, hr, hrest, rfl⟩

/-- A run of a filter mode shows what its instance returns, fed the samples of the cycles. -/
theorem trace_eq_instFeed (red : Reduction) (xs : List Sample) :
    ∀ (s : State) (outs : List Output) (last : FilterInst), s.Streaming red.mode xs →
      instFeed red s.cfg (s.stage.inst red) xs = .ok (outs, last) → trace xs.length s = outs := by
  induction xs with
  | nil =>
    rintro s outs last - ⟨⟩
    rfl
  | cons x xs ih =>
    intro s outs last h hfeed
    obtain ⟨r, rest, hr, hrest, rfl⟩ := instFeed_cons_cases hfeed
    have hcall : filterProcess red s.present.cfg (s.present.stage.inst red) s.present.ins.inSample = .ok r := by
      rwa [State.present_cfg, State.present_stage, h.present_ins]
    obtain ⟨t, hexec, hinst, hout⟩ := exec_filterMode hcall
    obtain ⟨hcfg, -, -⟩ := exec_frame hexec
    rw [State.present_cfg] at hcfg
    rw [h.trace_cons hexec, hout, ih t rest last (h.next hexec) (by rwa [hcfg, hinst])]

/-- Cycle n of a filter mode after a reset edge shows the reduction of the window of R113. -/
theorem trace_filterMode (red : Reduction) {s : State} (hp : s.cfg.wf = true) {xs : List Sample} {n : Nat}
    (hn : n < xs.length) :
    (trace (xs.length + 1) (s.listing (streamEdges (encode red.mode) xs)))[n + 1]? =
      some { sample := reduce red s.cfg (windowAt s.cfg xs n), valid := decide (2 * s.cfg.w - 1 ≤ n) } := by
  obtain ⟨t, htrace, -, hcfg, hstage, hstream⟩ := trace_streamEdges hp red.mode_wf xs
  obtain ⟨outs, last, hfeed, hlen, -, houts⟩ := instanceOutputClosedForm red s.cfg xs (three_le_w hp)
  have hcycles : trace xs.length t = outs :=
    trace_eq_instFeed red xs t outs last hstream (by rwa [hcfg, hstage, constructStage_inst])
  rw [htrace, hcycles, List.getElem?_cons_succ, List.getElem?_eq_getElem (by omega), houts]

/-- Settles O48: NONE shows the samples, each filter mode the outputs of its constructed instance. -/
theorem streamOutputClosedForm : Obligations.StreamOutputClosedForm := by
  intro s xs n hn hp
  refine ⟨?none, trace_filterMode .smoothing hp hn, trace_filterMode .sharpening hp hn,
    trace_filterMode .gradientMagnitude hp hn⟩
  obtain ⟨t, htrace, -, -, -, hstream⟩ := trace_streamEdges (i := .bypass) hp rfl xs
  rw [htrace, trace_bypass xs t hstream]
  simp [hn]

/-! ### INIT_FILL -/

theorem streamAt_fill_irrelevant {fill fill' : Sample} {xs : List Sample} {m : Int} (h0 : 0 ≤ m) (hm : m < xs.length) :
    streamAt fill xs m = streamAt fill' xs m := by
  lift m to Nat using h0
  rw [streamAt_of_lt_length (by omega), streamAt_of_lt_length (by omega)]

/-- A column of call 2W or later reaches back to no sample from before the stream. -/
theorem columnSample_fill_irrelevant (prm : Params) {fill fill' : Sample} {xs : List Sample} {m i : Nat} (hi : i < 3)
    (hlow : 2 * prm.w ≤ m) (hm : m < xs.length) :
    columnSample 3 prm (streamAt fill xs) m i = columnSample 3 prm (streamAt fill' xs) m i := by
  have hback : 0 ≤ (((3 : Nat) : Int) - 1 - i) * prm.w := mul_nonneg (by omega) (by omega)
  have hback2 : (((3 : Nat) : Int) - 1 - i) * prm.w ≤ 2 * prm.w := mul_le_mul_of_nonneg_right (by omega) (by omega)
  exact streamAt_fill_irrelevant (by omega) (by omega)

/-- From call 2W + 2 on the window holds samples of the stream only (R116). -/
theorem windowAt_initFill {prm : Params} {xs : List Sample} {n : Nat} (v : Sample) (hlow : 2 * prm.w + 2 ≤ n)
    (hn : n < xs.length) : windowAt { prm with initFill := v } xs n = windowAt prm xs n := by
  refine SlidingWindow.eq_of_get fun i j hi hj => ?_
  rw [windowAt_get _ _ _ _ _ hi hj, windowAt_get _ _ _ _ _ hi hj, if_neg (by omega), if_neg (by omega)]
  exact columnSample_fill_irrelevant prm hi (by omega) (by omega)

theorem exists_reduction_of_filterMode {i : Instr} (hi : i = .smooth ∨ i = .sharpen ∨ i = .gradient) :
    ∃ red : Reduction, i = red.mode := by
  obtain rfl | rfl | rfl := hi
  · exact ⟨.smoothing, rfl⟩
  · exact ⟨.sharpening, rfl⟩
  · exact ⟨.gradientMagnitude, rfl⟩

theorem reduce_initFill (red : Reduction) (prm : Params) (v : Sample) (sw : Window) :
    reduce red { prm with initFill := v } sw = reduce red prm sw := rfl

/-- Settles O51: both runs show the reduction of one window, which holds no INIT_FILL any more. -/
theorem filterModesIgnoreRowResetAfterThreeValid : Obligations.FilterModesIgnoreRowResetAfterThreeValid := by
  intro s u v i xs n hp hi hcfg hlow
  obtain ⟨red, rfl⟩ := exists_reduction_of_filterMode hi
  have hpu : u.cfg.wf = true := by
    rw [hcfg]
    exact hp
  by_cases hn : n < xs.length
  · rw [trace_filterMode red hp hn, trace_filterMode red hpu hn, hcfg, windowAt_initFill v hlow hn, reduce_initFill]
    rfl
  · have hended (r : State) : (trace (xs.length + 1) r)[n + 1]? = none := by
      have hlen := trace_length_le (xs.length + 1) r
      exact List.getElem?_eq_none (by omega)
    rw [hended, hended]

/-! ### WIN_INIT -/

/-- The calls an instance has had since reset, as its position counters tell them (R27, R29). -/
def FilterInst.calls (prm : Params) (f : FilterInst) : Nat := f.yCnt * prm.w + f.xCnt

theorem instAfter_calls (prm : Params) (f : FilterInst) (x : Sample) :
    (instAfter prm f x).calls prm = f.calls prm + 1 := by
  simp only [FilterInst.calls, instAfter, xCntNext, yCntNext]
  split_ifs with hlast
  · rw [Nat.succ_mul, ← hlast]
    omega
  · rfl

/-- A valid instance has had three calls. -/
theorem three_le_calls_of_valid {prm : Params} (hw : 3 ≤ prm.w) {f : FilterInst} (h : filterValid f = true) :
    3 ≤ f.calls prm := by
  obtain ⟨-, hy⟩ := filterValid_iff.mp h
  have hrows : 2 * prm.w ≤ f.yCnt * prm.w := Nat.mul_le_mul_right _ hy
  unfold FilterInst.calls
  omega

/-- Two instances that differ at most in the window columns no call has inserted (R116). -/
structure FilterInst.AgreeOnCalls (prm : Params) (f g : FilterInst) : Prop where
  rh : g.rh = f.rh
  xCnt : g.xCnt = f.xCnt
  yCnt : g.yCnt = f.yCnt
  window : ∀ i j, (hi : i < 3) → (hj : j < 3) → 3 ≤ j + f.calls prm → (g.sw.win[i])[j] = (f.sw.win[i])[j]

theorem constructInst_agreeOnCalls (prm : Params) (v : Sample) :
    (constructInst prm).AgreeOnCalls prm (constructInst { prm with winInit := v }) where
  rh := rfl
  xCnt := rfl
  yCnt := rfl
  window i j _ hj h := by
    simp only [FilterInst.calls, constructInst, Nat.zero_mul, Nat.add_zero] at h
    omega

/-- A call inserts the same column in both windows. -/
theorem FilterInst.AgreeOnCalls.after {prm : Params} {f g : FilterInst} (h : f.AgreeOnCalls prm g) (x : Sample) :
    (instAfter prm f x).AgreeOnCalls prm (instAfter prm g x) where
  rh := by simp only [instAfter, h.rh]
  xCnt := by simp only [instAfter, xCntNext, h.xCnt]
  yCnt := by simp only [instAfter, yCntNext, h.xCnt, h.yCnt]
  window i j hi hj hcalls := by
    rw [instAfter_calls] at hcalls
    simp only [instAfter, h.rh, windowShift_get _ _ i j hi hj]
    split_ifs with hheld
    · exact h.window i (j + 1) hi hheld (by omega)
    · rfl

theorem FilterInst.AgreeOnCalls.valid_eq {prm : Params} {f g : FilterInst} (h : f.AgreeOnCalls prm g) :
    filterValid g = filterValid f := by
  simp only [filterValid, h.rh, h.yCnt]

/-- Valid instances have let go of what their windows were constructed with. -/
theorem FilterInst.AgreeOnCalls.window_eq {prm : Params} (hw : 3 ≤ prm.w) {f g : FilterInst}
    (h : f.AgreeOnCalls prm g) (hvalid : filterValid f = true) : g.sw = f.sw := by
  have hcalls := three_le_calls_of_valid hw hvalid
  exact SlidingWindow.eq_of_get fun i j hi hj => h.window i j hi hj (by omega)

theorem filterProcess_winInit (red : Reduction) (prm : Params) (v : Sample) (f : FilterInst) (x : Sample) :
    filterProcess red { prm with winInit := v } f x = filterProcess red prm f x := rfl

/-- Where a call of one instance succeeds, so does that of the other, valid alike and, where valid, with the same
sample. -/
theorem FilterInst.AgreeOnCalls.call {red : Reduction} {prm : Params} (hw : 3 ≤ prm.w) {f g : FilterInst}
    {x : Sample} {r : Processed} (h : f.AgreeOnCalls prm g) (hr : filterProcess red prm f x = .ok r) :
    ∃ r', filterProcess red prm g x = .ok r' ∧ r.inst.AgreeOnCalls prm r'.inst ∧ r'.valid = r.valid ∧
      (r.valid = true → r'.sample = r.sample) := by
  obtain ⟨hc, hsample, hvalid, hinst⟩ := filterProcess_cases hr
  have hafter := h.after x
  refine ⟨_, filterProcess_ok (by rwa [h.rh]), hinst ▸ hafter, hafter.valid_eq.trans hvalid.symm, fun hv => ?_⟩
  rw [hsample, ← hafter.window_eq hw (hvalid ▸ hv)]

/-- Two machines in builds that differ in WIN_INIT only, whose instances agree on their calls. -/
structure State.AgreeOnCalls (v : Sample) (s u : State) : Prop where
  cfg : u.cfg = { s.cfg with winInit := v }
  mode : u.stage.mode = s.stage.mode
  fS : s.stage.fS.AgreeOnCalls s.cfg u.stage.fS
  fSH : s.stage.fSH.AgreeOnCalls s.cfg u.stage.fSH
  fG : s.stage.fG.AgreeOnCalls s.cfg u.stage.fG

theorem State.AgreeOnCalls.present {v : Sample} {s u : State} (h : s.AgreeOnCalls v u) :
    s.present.AgreeOnCalls v u.present := by
  obtain ⟨hcfg, hmode, hS, hSH, hG⟩ := h
  constructor <;> simpa only [State.present_cfg, State.present_stage]

/-- An operation that completes in one machine does so in the other, keeps their agreement, and drives the same output
where it is valid. -/
theorem State.AgreeOnCalls.operation {v : Sample} {i : Instr} {s t u : State} (h : s.AgreeOnCalls v u)
    (hw : 3 ≤ s.cfg.w) (hins : u.ins = s.ins) (hexec : exec i s = .next t) :
    ∃ t', exec i u = .next t' ∧ t.AgreeOnCalls v t' ∧ (t.out.valid = true → t'.out = t.out) := by
  obtain ⟨hcfg, hmode, hS, hSH, hG⟩ := h
  have other {red : Reduction} {f : FilterInst} {x : Sample} {r : Processed}
      (hr : filterProcess red s.cfg f x = .ok r) : filterProcess red u.cfg f x = .ok r := by
    rwa [hcfg, filterProcess_winInit]
  rcases exec_cases hexec with ⟨rfl, rfl⟩ | ⟨rfl, r, hr, rfl⟩ | ⟨rfl, r, hr, rfl⟩ | ⟨rfl, r, hr, rfl⟩ |
    ⟨rfl, rS, hrS, ⟨hv, rfl⟩ | ⟨hv, rG, hrG, rfl⟩⟩
  · exact ⟨_, rfl, ⟨hcfg, hmode, hS, hSH, hG⟩, fun _ => by simp [hins]⟩
  · obtain ⟨r', hr', hinst, hvalid, hsample⟩ := hS.call hw hr
    refine ⟨_, exec_smooth_iff.mpr ⟨r', hins ▸ other hr', rfl⟩, ⟨hcfg, hmode, hinst, hSH, hG⟩, fun hv => ?_⟩
    exact congrArg₂ Output.mk (hsample hv) hvalid
  · obtain ⟨r', hr', hinst, hvalid, hsample⟩ := hSH.call hw hr
    refine ⟨_, exec_sharpen_iff.mpr ⟨r', hins ▸ other hr', rfl⟩, ⟨hcfg, hmode, hS, hinst, hG⟩, fun hv => ?_⟩
    exact congrArg₂ Output.mk (hsample hv) hvalid
  · obtain ⟨r', hr', hinst, hvalid, hsample⟩ := hG.call hw hr
    refine ⟨_, exec_gradient_iff.mpr ⟨r', hins ▸ other hr', rfl⟩, ⟨hcfg, hmode, hS, hSH, hinst⟩, fun hv => ?_⟩
    exact congrArg₂ Output.mk (hsample hv) hvalid
  · obtain ⟨rS', hrS', hinstS, hvalidS, -⟩ := hS.call hw hrS
    exact ⟨_, exec_chain_iff.mpr ⟨rS', hins ▸ other hrS', .inl ⟨hvalidS.trans hv, rfl⟩⟩, ⟨hcfg, hmode, hinstS, hSH, hG⟩,
      fun hout => nomatch hout⟩
  · obtain ⟨rS', hrS', hinstS, hvalidS, hsampleS⟩ := hS.call hw hrS
    obtain ⟨rG', hrG', hinstG, hvalidG, hsampleG⟩ := hG.call hw hrG
    rw [← hsampleS hv] at hrG'
    refine ⟨_, exec_chain_iff.mpr ⟨rS', hins ▸ other hrS', .inr ⟨hvalidS.trans hv, rG', other hrG', rfl⟩⟩,
      ⟨hcfg, hmode, hinstS, hSH, hinstG⟩, fun hout => ?_⟩
    obtain ⟨-, hvG⟩ : rS.valid = true ∧ rG.valid = true := by simpa [chainValid] using hout
    exact congrArg₂ Output.mk (hsampleG hvG) (by rw [hvalidS, hvalidG])

/-- The agreement of two machines carries along a stream: what one shows as valid the other shows too. -/
theorem State.AgreeOnCalls.trace_valid {v : Sample} {i : Instr} (xs : List Sample) :
    ∀ s u : State, s.AgreeOnCalls v u → s.Streaming i xs → u.Streaming i xs →
      ∀ (n : Nat) (o : Output), (trace xs.length s)[n]? = some o → o.valid = true →
        (trace xs.length u)[n]? = some o := by
  induction xs with
  | nil => exact fun s u _ _ _ n o h _ => nomatch h
  | cons x xs ih =>
    intro s u h hs hu n o ho hv
    cases hexec : exec i s.present with
    | fault e => simp [trace, hs.step_eq, hexec] at ho
    | refused r => simp [trace, hs.step_eq, hexec] at ho
    | next t =>
      have hins : u.present.ins = s.present.ins := by rw [hu.present_ins, hs.present_ins, h.mode]
      have hw : 3 ≤ s.present.cfg.w := by
        rw [State.present_cfg]
        exact three_le_w hs.params
      obtain ⟨t', hexec', hagree, hout⟩ := h.present.operation hw hins hexec
      rw [hs.trace_cons hexec] at ho
      rw [hu.trace_cons hexec']
      cases n with
      | zero =>
        cases ho
        exact congrArg some (hout hv)
      | succ n => exact ih t t' hagree (hs.next hexec) (hu.next hexec') n o ho hv

/-- Settles O50: the reset edge makes the machines agree, and every valid output has let go of WIN_INIT. -/
theorem windowResetIsUnobservable : Obligations.WindowResetIsUnobservable := by
  intro s u v i xs n o hp hi hcfg ho hv
  have hpu : u.cfg.wf = true := by
    rw [hcfg]
    exact hp
  obtain ⟨t, htrace, hinvalid, htcfg, htstage, htstream⟩ := trace_streamEdges hp hi xs
  obtain ⟨t', htrace', -, htcfg', htstage', htstream'⟩ := trace_streamEdges hpu hi xs
  have hinst := constructInst_agreeOnCalls s.cfg v
  have hagree : t.AgreeOnCalls v t' := by
    constructor <;> simp only [htcfg, htcfg', htstage, htstage', hcfg, constructStage, hinst]
  rw [htrace] at ho
  rw [htrace']
  cases n with
  | zero =>
    cases ho
    simp [hinvalid] at hv
  | succ n => exact hagree.trace_valid xs t t' htstream htstream' n o ho hv

end Sys2Proof.Machine

/-! PROOFS. The statements about the reductions and one call of a filter: each reduction as its kernel's sum,
the ranges of the intermediate values, the fixed-point division by 9, kernel orientation, uniform windows
(42_filters.md). -/

namespace Sys2Proof.Machine

open Sys2Proof.Config (SmoothImpl)

/-! ### The linear sums are the kernels applied -/

/-- The unweighted sum in the cells of the window. -/
theorem smoothSum_eq_cells (sw : Window) :
    (smoothSum sw : Int) =
      Window.cell sw 0 0 + Window.cell sw 0 1 + Window.cell sw 0 2
        + Window.cell sw 1 0 + Window.cell sw 1 1 + Window.cell sw 1 2
        + Window.cell sw 2 0 + Window.cell sw 2 1 + Window.cell sw 2 2 := by
  simp [smoothSum, Window.cell]

/-- A kernel written out, applied: each coefficient times the cell at its place (R18). -/
theorem Kernel.apply_mk (a b c d e f g h i : Int) (sw : Window) :
    Kernel.apply #v[#v[a, b, c], #v[d, e, f], #v[g, h, i]] sw =
      a * Window.cell sw 0 0 + b * Window.cell sw 0 1 + c * Window.cell sw 0 2
        + (d * Window.cell sw 1 0 + e * Window.cell sw 1 1 + f * Window.cell sw 1 2)
        + (g * Window.cell sw 2 0 + h * Window.cell sw 2 1 + i * Window.cell sw 2 2) := rfl

theorem Kernel.apply_smoothKernel (sw : Window) : Kernel.apply smoothKernel sw = smoothSum sw := by
  rw [smoothKernel, Kernel.apply_mk, smoothSum_eq_cells]
  ring

theorem Kernel.apply_sharpenKernel (sw : Window) : Kernel.apply sharpenKernel sw = sharpenSum sw := by
  rw [sharpenKernel, Kernel.apply_mk, sharpenSum, Window.center, Window.north, Window.south, Window.west, Window.east]
  ring

theorem Kernel.apply_gxKernel (sw : Window) : Kernel.apply gxKernel sw = gradX sw := by
  rw [gxKernel, Kernel.apply_mk, gradX]
  ring

theorem Kernel.apply_gyKernel (sw : Window) : Kernel.apply gyKernel sw = gradY sw := by
  rw [gyKernel, Kernel.apply_mk, gradY]
  ring

/-! ### The ranges of the sums (R134) -/

theorem Window.row_bounds (sw : Window) (i : Fin 3) :
    (0 ≤ Window.cell sw i 0 ∧ Window.cell sw i 0 ≤ 255) ∧ (0 ≤ Window.cell sw i 1 ∧ Window.cell sw i 1 ≤ 255) ∧
      (0 ≤ Window.cell sw i 2 ∧ Window.cell sw i 2 ≤ 255) :=
  ⟨Window.cell_bounds sw i 0, Window.cell_bounds sw i 1, Window.cell_bounds sw i 2⟩

theorem smoothSum_le (sw : Window) : smoothSum sw ≤ 2295 := by
  have hcells := smoothSum_eq_cells sw
  have htop := Window.row_bounds sw 0
  have hmiddle := Window.row_bounds sw 1
  have hbottom := Window.row_bounds sw 2
  omega

theorem sharpenSum_bounds (sw : Window) : -1020 ≤ sharpenSum sw ∧ sharpenSum sw ≤ 1275 := by
  have htop := Window.row_bounds sw 0
  have hmiddle := Window.row_bounds sw 1
  have hbottom := Window.row_bounds sw 2
  unfold sharpenSum Window.center Window.north Window.south Window.west Window.east
  omega

theorem gradX_bounds (sw : Window) : -1020 ≤ gradX sw ∧ gradX sw ≤ 1020 := by
  have htop := Window.row_bounds sw 0
  have hmiddle := Window.row_bounds sw 1
  have hbottom := Window.row_bounds sw 2
  unfold gradX
  omega

theorem gradY_bounds (sw : Window) : -1020 ≤ gradY sw ∧ gradY sw ≤ 1020 := by
  have htop := Window.row_bounds sw 0
  have hbottom := Window.row_bounds sw 2
  unfold gradY
  omega

/-- In gx + gy two opposite corners cancel and every other cell but the centre counts twice. -/
theorem gradX_add_gradY (sw : Window) :
    gradX sw + gradY sw =
      2 * (Window.cell sw 2 2 + Window.cell sw 1 2 + Window.cell sw 2 1
        - Window.cell sw 0 0 - Window.cell sw 1 0 - Window.cell sw 0 1) := by
  unfold gradX gradY
  ring

/-- In gx − gy the other two corners cancel. -/
theorem gradX_sub_gradY (sw : Window) :
    gradX sw - gradY sw =
      2 * (Window.cell sw 0 2 + Window.cell sw 1 2 + Window.cell sw 0 1
        - Window.cell sw 2 0 - Window.cell sw 1 0 - Window.cell sw 2 1) := by
  unfold gradX gradY
  ring

/-- |gx| + |gy| is one of ±(gx + gy), ±(gx − gy), each twice a sum of six cells, three of either sign. -/
theorem gradient_magnitude_le (sw : Window) : (gradX sw).natAbs + (gradY sw).natAbs ≤ 1530 := by
  have hadd := gradX_add_gradY sw
  have hsub := gradX_sub_gradY sw
  have htop := Window.row_bounds sw 0
  have hmiddle := Window.row_bounds sw 1
  have hbottom := Window.row_bounds sw 2
  omega

/-- gx and gy have the same parity, so their absolute values do (R128). -/
theorem gradient_magnitude_even (sw : Window) : ((gradX sw).natAbs + (gradY sw).natAbs) % 2 = 0 := by
  have hadd := gradX_add_gradY sw
  omega

/-- Settles O27: the bound of each sum, and the largest unweighted sum times RECIP9. -/
theorem intermediateRanges : Obligations.IntermediateRanges := by
  intro sw
  have hproduct : smoothSum sw * recip9 ≤ 16712190 := Nat.mul_le_mul_right recip9 (smoothSum_le sw)
  obtain ⟨hvlow, hvhigh⟩ := sharpenSum_bounds sw
  obtain ⟨hxlow, hxhigh⟩ := gradX_bounds sw
  obtain ⟨hylow, hyhigh⟩ := gradY_bounds sw
  exact ⟨smoothSum_le sw, hproduct, hvlow, hvhigh, hxlow, hxhigh, hylow, hyhigh, gradient_magnitude_le sw⟩

/-! ### The fixed-point division by 9 -/

theorem fixedQuotient_eq_div (c s : Nat) : fixedQuotient c s = s * c / 65536 :=
  Nat.shiftRight_eq_div_pow (s * c) 16

/-- Settles O24: a smaller multiplier fails at the sum 9, a larger one at 2294; the three between meet the property, by
linear arithmetic for each. -/
theorem fixedPointMultipliers : Obligations.FixedPointMultipliers := by
  intro c
  simp only [fixedQuotient_eq_div]
  constructor
  · intro h
    have hlow : 9 * c / 65536 = 1 := h 9 (by decide)
    have hhigh : 2294 * c / 65536 = 254 := h 2294 (by decide)
    omega
  · rintro (rfl | rfl | rfl) s hs <;> omega

theorem fixedQuotient_recip9 {s : Nat} (hs : s ≤ 2295) : fixedQuotient recip9 s = s / 9 :=
  (fixedPointMultipliers recip9).mpr (.inl rfl) s hs

/-! ### The reductions as numbers -/

/-- Both implementations of the division (R126, R129). -/
theorem toNat_reduceSmooth (impl : SmoothImpl) (sw : Window) : (reduceSmooth impl sw).toNat = smoothSum sw / 9 := by
  have hsum := smoothSum_le sw
  have hresult : smoothSum sw / 9 ≤ 255 := by omega
  cases impl with
  | div => exact toNat_sampleOfNat hresult
  | fixed => rw [reduceSmooth, fixedQuotient_recip9 hsum, toNat_sampleOfNat hresult]

theorem toNat_reduceSharpen (sw : Window) : ((reduceSharpen sw).toNat : Int) = min 255 (max 0 (sharpenSum sw)) := by
  have hresult : (clamp (sharpenSum sw) 0 255).toNat ≤ 255 := by
    unfold clamp
    omega
  rw [reduceSharpen, toNat_sampleOfNat hresult, clamp]
  omega

theorem toNat_reduceGradient (sw : Window) :
    (reduceGradient sw).toNat = min 255 ((gradX sw).natAbs + (gradY sw).natAbs) :=
  toNat_sampleOfNat (Nat.min_le_left _ _)

/-- Settles O21: the kernel's sum is the unweighted one, which both implementations divide by 9. -/
theorem smoothingIsFloorOfMean : Obligations.SmoothingIsFloorOfMean := by
  intro impl sw
  rw [toNat_reduceSmooth, Kernel.apply_smoothKernel]
  exact Int.natCast_ediv (smoothSum sw) 9

/-- Settles O22: the clamped sum is the one the kernel gives. -/
theorem sharpeningIsClampedSum : Obligations.SharpeningIsClampedSum :=
  fun sw => ⟨toNat_reduceSharpen sw, Kernel.apply_sharpenKernel sw⟩

/-- Settles O23: gx and gy are the kernels' sums, and the cap at 255 leaves the even magnitude or is reached. -/
theorem gradientIsCappedMagnitude : Obligations.GradientIsCappedMagnitude := by
  intro sw
  rw [Kernel.apply_gxKernel, Kernel.apply_gyKernel, toNat_reduceGradient]
  have heven := gradient_magnitude_even sw
  exact ⟨rfl, by omega⟩

/-! ### Kernel orientation

Smoothing's and Sharpening's kernels are symmetric about the centre, Gx and Gy antisymmetric. -/

/-- The kernel with every coefficient negated. -/
def Kernel.neg (k : Kernel) : Kernel := k.map (Vector.map Neg.neg)

theorem Kernel.apply_neg (k : Kernel) (sw : Window) : Kernel.apply k.neg sw = -Kernel.apply k sw := by
  simp only [Kernel.apply, Kernel.row, Kernel.neg, Fin.getElem_fin, Vector.getElem_map]
  ring

theorem Kernel.flip_smoothKernel : Kernel.flip smoothKernel = smoothKernel := by decide

theorem Kernel.flip_sharpenKernel : Kernel.flip sharpenKernel = sharpenKernel := by decide

theorem Kernel.flip_gxKernel : Kernel.flip gxKernel = gxKernel.neg := by simp [Kernel.flip, Kernel.neg, gxKernel]

theorem Kernel.flip_gyKernel : Kernel.flip gyKernel = gyKernel.neg := by simp [Kernel.flip, Kernel.neg, gyKernel]

/-- Settles O26: a flip leaves the first two kernels as they are and negates the others, a sign the magnitude drops. -/
theorem kernelOrientationIsUnobservable : Obligations.KernelOrientationIsUnobservable := by
  intro sw
  rw [Kernel.flip_smoothKernel, Kernel.flip_sharpenKernel, Kernel.flip_gxKernel, Kernel.flip_gyKernel,
    Kernel.apply_neg, Kernel.apply_neg, Int.natAbs_neg, Int.natAbs_neg]
  obtain ⟨hmagnitude, -⟩ := gradientIsCappedMagnitude sw
  exact ⟨rfl, rfl, rfl, rfl, hmagnitude⟩

/-! ### Uniform windows -/

/-- Settles O25: the sums of a uniform window are 9c, c, 0 and 0. -/
theorem uniformWindows : Obligations.UniformWindows := by
  intro c impl sw huniform
  have hcell (i j : Fin 3) : Window.cell sw i j = c.toNat := by rw [Window.cell, huniform]
  have hsmooth : (smoothSum sw : Int) = 9 * c.toNat := by
    rw [smoothSum_eq_cells]
    simp only [hcell]
    ring
  have hsharpen : sharpenSum sw = c.toNat := by
    simp only [sharpenSum, Window.center, Window.north, Window.south, Window.west, Window.east, hcell]
    ring
  have hgx : gradX sw = 0 := by simp [gradX, hcell]
  have hgy : gradY sw = 0 := by simp [gradY, hcell]
  have hc := c.isLt
  refine ⟨BitVec.eq_of_toNat_eq ?smooth, BitVec.eq_of_toNat_eq ?sharpen, BitVec.eq_of_toNat_eq ?gradient⟩
  case smooth =>
    rw [toNat_reduceSmooth]
    omega
  case sharpen =>
    have hclamped := toNat_reduceSharpen sw
    omega
  case gradient =>
    rw [toNat_reduceGradient, hgx, hgy]
    rfl

/-! ### One call -/

/-- Settles O28: the model's laws of one call; the reduction and the counters are their own definitions. -/
theorem filterProcess_law : Obligations.FilterProcess := by
  intro red prm f x hc
  refine ⟨_, _, _, rowHistoryAdvance_eq_after hc, filterProcess_ok hc, rfl, rfl, fun hred => ?smoothing,
    fun hred => ?sharpening, fun hred => ?gradient, rfl, rfl, filterValid_iff⟩
  case smoothing => rw [hred, reduce]
  case sharpening => rw [hred, reduce]
  case gradient => rw [hred, reduce]

end Sys2Proof.Machine

/-! PROOFS. The statements about the operations of the Stage: what each calls, shows and leaves alone, that `out_valid`
does not fall between resets, and the outputs of CHAIN in closed form (43_stage.md). -/

namespace Sys2Proof.Machine

open Sys2Proof.Config (Params)

/-! ### The next state of each operation -/

/-- Settles O32: the one update of NONE drives the output ports. -/
theorem nonePassesThrough : Obligations.NonePassesThrough :=
  fun s => ⟨s.drive { sample := s.ins.inSample, valid := true }, rfl, rfl, rfl, rfl, rfl, rfl, rfl⟩

/-- Settles O33: the one call each of the three modes makes succeeds where its instance's cursor is in range. -/
theorem filterModesDelegate : Obligations.FilterModesDelegate := by
  refine ⟨fun s hc => ?smooth, fun s hc => ?sharpen, fun s hc => ?gradient⟩
  case smooth => exact ⟨_, filterProcess_ok hc, exec_smooth_iff.mpr ⟨_, filterProcess_ok hc, rfl⟩⟩
  case sharpen => exact ⟨_, filterProcess_ok hc, exec_sharpen_iff.mpr ⟨_, filterProcess_ok hc, rfl⟩⟩
  case gradient => exact ⟨_, filterProcess_ok hc, exec_gradient_iff.mpr ⟨_, filterProcess_ok hc, rfl⟩⟩

/-- CHAIN where F_S is not valid: F_G is not called, and the output is a draw (R145). -/
theorem exec_chain_of_invalid {s : State} {rS : Processed}
    (hS : filterProcess .smoothing s.cfg s.stage.fS s.ins.inSample = .ok rS) (hv : rS.valid = false) :
    exec .chain s = .next (s.withFS rS.inst).driveDraw :=
  exec_chain_iff.mpr ⟨rS, hS, .inl ⟨hv, rfl⟩⟩

/-- CHAIN where F_S is valid: F_G is fed its sample, and alone decides on the validity (R145). -/
theorem exec_chain_of_valid {s : State} {rS rG : Processed}
    (hS : filterProcess .smoothing s.cfg s.stage.fS s.ins.inSample = .ok rS) (hv : rS.valid = true)
    (hG : filterProcess .gradientMagnitude s.cfg s.stage.fG rS.sample = .ok rG) :
    exec .chain s = .next (((s.withFS rS.inst).withFG rG.inst).drive { sample := rG.sample, valid := rG.valid }) :=
  exec_chain_iff.mpr ⟨rS, hS, .inr ⟨hv, rG, hG, by rw [hv, chainValid, Bool.true_and]⟩⟩

/-- Settles O34: F_S's validity says which of CHAIN's two next states is the one. -/
theorem chainFeedsGradientOnValid : Obligations.ChainFeedsGradientOnValid := by
  refine fun s hcS => ⟨_, filterProcess_ok hcS, fun hv => ?invalid, fun hv hcG => ?valid⟩
  case invalid => exact exec_chain_of_invalid (filterProcess_ok hcS) hv
  case valid =>
    refine ⟨_, filterProcess_ok hcG, (exec_chain_of_valid (filterProcess_ok hcS) hv (filterProcess_ok hcG)).trans ?_⟩
    rw [hv, Bool.true_and]
    rfl

/-! ### What an operation leaves alone -/

/-- What a call returns as valid is the validity of the instance it leaves (R122). -/
theorem filterProcess_valid {red : Reduction} {prm : Params} {f : FilterInst} {x : Sample} {r : Processed}
    (h : filterProcess red prm f x = .ok r) : r.valid = filterValid r.inst := by
  obtain ⟨-, -, hvalid, hinst⟩ := filterProcess_cases h
  rw [hvalid, hinst]

/-- An operation reads the input ports and leaves them as they are. -/
theorem exec_ins {i : Instr} {s t : State} (h : exec i s = .next t) : t.ins = s.ins := by
  rcases exec_cases h with ⟨-, rfl⟩ | ⟨-, r, -, rfl⟩ | ⟨-, r, -, rfl⟩ | ⟨-, r, -, rfl⟩ |
    ⟨-, rS, -, ⟨-, rfl⟩ | ⟨-, rG, -, rfl⟩⟩ <;> rfl

/-- CHAIN is the one operation that uses a free value (R145). -/
theorem exec_draws {i : Instr} {s t : State} (h : exec i s = .next t) (hi : i ≠ .chain) : t.draws = s.draws := by
  rcases exec_cases h with ⟨-, rfl⟩ | ⟨-, r, -, rfl⟩ | ⟨-, r, -, rfl⟩ | ⟨-, r, -, rfl⟩ | ⟨hchain, -⟩
  · rfl
  · rfl
  · rfl
  · rfl
  · exact absurd hchain hi

/-- CHAIN calls F_G only where it leaves F_S valid. -/
theorem exec_chain_keeps_fG {s t : State} (h : exec .chain s = .next t) (hv : filterValid t.stage.fS = false) :
    t.stage.fG = s.stage.fG := by
  obtain ⟨rS, hS, ⟨-, rfl⟩ | ⟨hvS, rG, -, rfl⟩⟩ := exec_chain_iff.mp h
  · rfl
  · have hvalid : filterValid rS.inst = true := (filterProcess_valid hS).symm.trans hvS
    exact absurd (hv.symm.trans hvalid) Bool.false_ne_true

/-- Settles O35: the frame of every operation, and CHAIN's own clause on F_G. -/
theorem operationsFrame : Obligations.OperationsFrame := by
  intro i s t h
  obtain ⟨hcfg, hmode, hpending⟩ := exec_frame h
  obtain ⟨hS, hSH, hG⟩ := exec_idleKept h
  refine ⟨hmode, hcfg, exec_ins h, hpending, hS, hSH, hG, fun hi => ?_, exec_draws h⟩
  subst hi
  exact exec_chain_keeps_fG h

/-! ### out_valid between resets -/

/-- The `out_valid` that an operation shows where it leaves the Stage at `st` (R141 to R145). -/
def Stage.outValid (st : Stage) : Instr → Bool
  | .bypass => true
  | .smooth => filterValid st.fS
  | .sharpen => filterValid st.fSH
  | .gradient => filterValid st.fG
  | .chain => chainValid (filterValid st.fS) (filterValid st.fG)
  | .reserved101 => false
  | .reserved110 => false
  | .reserved111 => false

theorem exec_out_valid {i : Instr} {s t : State} (h : exec i s = .next t) : t.out.valid = t.stage.outValid i := by
  rcases exec_cases h with ⟨rfl, rfl⟩ | ⟨rfl, r, hr, rfl⟩ | ⟨rfl, r, hr, rfl⟩ | ⟨rfl, r, hr, rfl⟩ |
    ⟨rfl, rS, hS, ⟨hv, rfl⟩ | ⟨-, rG, hG, rfl⟩⟩
  · rfl
  · exact filterProcess_valid hr
  · exact filterProcess_valid hr
  · exact filterProcess_valid hr
  · have hinvalid : filterValid rS.inst = false := (filterProcess_valid hS).symm.trans hv
    simp [Stage.outValid, chainValid, hinvalid]
  · exact congrArg₂ chainValid (filterProcess_valid hS) (filterProcess_valid hG)

theorem FilterInst.KeptOrCalled.valid {prm : Params} {fed : Prop} {f g : FilterInst} (h : f.KeptOrCalled prm fed g)
    (hf : filterValid f = true) : filterValid g = true := by
  rcases h with rfl | ⟨-, x, rfl⟩
  · exact hf
  · exact filterValid_instAfter x hf

/-- No operation takes back the validity of any mode: each instance stays valid. -/
theorem exec_keeps_outValid {i j : Instr} {s t : State} (h : exec i s = .next t) (hs : s.stage.outValid j = true) :
    t.stage.outValid j = true := by
  obtain ⟨callS, callSH, callG⟩ := exec_instances h
  cases j with
  | bypass => rfl
  | smooth => exact callS.valid hs
  | sharpen => exact callSH.valid hs
  | gradient => exact callG.valid hs
  | chain =>
    obtain ⟨hvS, hvG⟩ := Bool.and_eq_true_iff.mp hs
    exact Bool.and_eq_true_iff.mpr ⟨callS.valid hvS, callG.valid hvG⟩
  | reserved101 => exact hs
  | reserved110 => exact hs
  | reserved111 => exact hs

/-- A step with `rst = 0` runs the operation of the mode register. -/
theorem step_cycle_cases {s t : State} (hr : s.present.ins.rst = false) (h : step s = .next t) :
    exec (decode s.stage.mode) s.present = .next t := by
  rw [step_of_present_cycle hr] at h
  obtain ⟨-, -, hexec⟩ := cycleEdge_cases h
  rwa [State.present_stage] at hexec

/-- Settles O45: both cycles run one mode, and what its validity asks of the instances the second cycle keeps. -/
theorem outValidIsMonotone : Obligations.OutValidIsMonotone := by
  intro s t u _ hrs hrt hst htu hv
  have hfirst := step_cycle_cases hrs hst
  have hsecond := step_cycle_cases hrt htu
  obtain ⟨-, hmode, -⟩ := exec_frame hfirst
  rw [State.present_stage] at hmode
  rw [exec_out_valid hfirst, ← hmode, ← State.present_stage t] at hv
  rw [exec_out_valid hsecond, ← State.present_stage t]
  exact exec_keeps_outValid hsecond hv

/-! ### The outputs of CHAIN in closed form -/

/-- Where F_S, fed the samples of the cycles, is valid exactly from its call d on, a run of CHAIN shows from cycle d on
what F_G returns, fed F_S's outputs from that call on (R145). -/
theorem trace_chain_drop (xs : List Sample) :
    ∀ (d : Nat) (s : State) (outsS outsG : List Output) (lastS lastG : FilterInst), s.Streaming .chain xs →
      instFeed .smoothing s.cfg s.stage.fS xs = .ok (outsS, lastS) →
      (∀ n, (hn : n < outsS.length) → outsS[n].valid = decide (d ≤ n)) →
      instFeed .gradientMagnitude s.cfg s.stage.fG ((outsS.map Output.sample).drop d) = .ok (outsG, lastG) →
      (trace xs.length s).drop d = outsG := by
  induction xs with
  | nil =>
    rintro d s outsS outsG lastS lastG - ⟨⟩ - hfeedG
    rw [List.map_nil, List.drop_nil] at hfeedG
    cases hfeedG
    exact List.drop_nil
  | cons x xs ih =>
    intro d s outsS outsG lastS lastG h hfeedS hvalid hfeedG
    obtain ⟨rS, restS, hS, hrestS, rfl⟩ := instFeed_cons_cases hfeedS
    have hfirst : rS.valid = decide (d ≤ 0) := hvalid 0 (Nat.succ_pos _)
    have hrest (n : Nat) (hn : n < restS.length) : restS[n].valid = decide (d ≤ n + 1) :=
      hvalid (n + 1) (Nat.succ_lt_succ hn)
    have hcallS : filterProcess .smoothing s.present.cfg s.present.stage.fS s.present.ins.inSample = .ok rS := by
      rwa [State.present_cfg, State.present_stage, h.present_ins]
    cases d with
    | zero =>
      obtain ⟨rG, restG, hG, hrestG, rfl⟩ := instFeed_cons_cases hfeedG
      have hcallG : filterProcess .gradientMagnitude s.present.cfg s.present.stage.fG rS.sample = .ok rG := by
        rwa [State.present_cfg, State.present_stage]
      have hexec := exec_chain_of_valid hcallS hfirst hcallG
      have htail := ih 0 _ restS restG lastS lastG (h.next hexec) (by simpa using hrestS) (by simpa using hrest)
        (by simpa using hrestG)
      rw [h.trace_cons hexec]
      exact congrArg (_ :: ·) htail
    | succ d =>
      have hexec := exec_chain_of_invalid hcallS hfirst
      rw [h.trace_cons hexec, List.drop_succ_cons]
      exact ih d _ restS outsG lastS lastG (h.next hexec) (by simpa using hrestS) (by simpa using hrest)
        (by simpa using hfeedG)

/-- The samples F_S returns since reset are those of R147. -/
theorem map_sample_eq_smoothedStream {prm : Params} {xs : List Sample} {outs : List Output}
    (hlen : outs.length = xs.length)
    (houts : ∀ n, (hn : n < outs.length) → outs[n].sample = reduce .smoothing prm (windowAt prm xs n)) :
    outs.map Output.sample = smoothedStream prm xs := by
  refine List.ext_getElem (by simp [smoothedStream, hlen]) fun n hn _ => ?_
  rw [List.length_map] at hn
  simp [smoothedStream, houts n hn]

/-- Settles O49: F_S and F_G are both constructed instances, F_S fed the samples, F_G what F_S returns from call 2W − 1
on, where it is valid. -/
theorem chainOutputClosedForm : Obligations.ChainOutputClosedForm := by
  intro s xs n hp hn hlow
  obtain ⟨t, htrace, -, hcfg, hstage, hstream⟩ := trace_streamEdges (i := .chain) hp rfl xs
  obtain ⟨outsS, lastS, hfeedS, hlenS, -, houtsS⟩ := instanceOutputClosedForm .smoothing s.cfg xs (three_le_w hp)
  obtain ⟨outsG, lastG, hfeedG, hlenG, -, houtsG⟩ := instanceOutputClosedForm .gradientMagnitude s.cfg
    ((smoothedStream s.cfg xs).drop (2 * s.cfg.w - 1)) (three_le_w hp)
  have hsamples : outsS.map Output.sample = smoothedStream s.cfg xs :=
    map_sample_eq_smoothedStream hlenS fun m hm => by rw [houtsS m hm]
  have hcycles : (trace xs.length t).drop (2 * s.cfg.w - 1) = outsG := by
    refine trace_chain_drop xs _ t outsS outsG lastS lastG hstream ?fS (fun m hm => by rw [houtsS m hm]) ?fG
    case fS => rwa [hcfg, hstage]
    case fG => rwa [hcfg, hstage, hsamples]
  have hcount : n - (2 * s.cfg.w - 1) < outsG.length := by
    rw [hlenG, List.length_drop, smoothedStream, List.length_map, List.length_range]
    omega
  have hvalid : 2 * s.cfg.w - 1 ≤ n - (2 * s.cfg.w - 1) ↔ 4 * s.cfg.w - 2 ≤ n := by omega
  calc (trace (xs.length + 1) (s.listing (streamEdges (encode .chain) xs)))[n + 1]?
      = ((trace xs.length t).drop (2 * s.cfg.w - 1))[n - (2 * s.cfg.w - 1)]? := by
        rw [htrace, List.getElem?_cons_succ, List.getElem?_drop, Nat.add_sub_cancel' hlow]
    _ = _ := by
        rw [hcycles, List.getElem?_eq_getElem hcount, houtsG _ hcount]
        simp only [hvalid]
        rfl

end Sys2Proof.Machine

/-! PROOFS. The statements about what can stop a step: the configuration check of a reset edge, the refusals of a cycle,
and that a configured machine never faults (60_exceptions.md). -/

namespace Sys2Proof.Machine

open Sys2Proof.Config (Params)

/-! ### The two kinds of clock edge -/

/-- A reset edge is refused for its configuration alone (R180). -/
theorem resetEdge_refused_iff {s : State} {r : Refusal} :
    resetEdge s = .refused r ↔ configRefusal s.cfg s.ins.cfgMode = some r := by
  cases h : configRefusal s.cfg s.ins.cfgMode <;> simp [resetEdge, h]

theorem resetEdge_ne_fault (s : State) (e : Fault) : resetEdge s ≠ .fault e := by
  cases h : configRefusal s.cfg s.ins.cfgMode <;> simp [resetEdge, h]

theorem cycleEdge_of_cycleRefusal {s : State} {r : Refusal} (h : cycleRefusal s = some r) :
    cycleEdge s = .refused r := by
  simp [cycleEdge, h]

theorem cycleEdge_of_cycleRefusal_none {s : State} (h : cycleRefusal s = none) :
    cycleEdge s = exec (decode s.stage.mode) s := by
  simp [cycleEdge, h]

/-! ### Completion -/

/-- CHAIN makes its second call or not; either way both cursors are in range (R145). -/
theorem exec_chain_completes {s : State} (hS : s.stage.fS.rh.cursor < s.cfg.w) (hG : s.stage.fG.rh.cursor < s.cfg.w) :
    ∃ t, exec .chain s = .next t := by
  cases hv : filterValid (instAfter s.cfg s.stage.fS s.ins.inSample) with
  | false => exact ⟨_, exec_chain_of_invalid (filterProcess_ok hS) hv⟩
  | true => exact ⟨_, exec_chain_of_valid (filterProcess_ok hS) hv (filterProcess_ok hG)⟩

/-- Settles O42: the invariant keeps every cursor in range, so each call an operation makes succeeds. -/
theorem legalOperationsComplete : Obligations.LegalOperationsComplete := by
  rintro i s ⟨-, -, ⟨hS, -⟩, ⟨hSH, -⟩, ⟨hG, -⟩⟩ hi
  cases i with
  | bypass => exact ⟨_, rfl⟩
  | smooth => exact ⟨_, exec_smooth_iff.mpr ⟨_, filterProcess_ok hS, rfl⟩⟩
  | sharpen => exact ⟨_, exec_sharpen_iff.mpr ⟨_, filterProcess_ok hSH, rfl⟩⟩
  | gradient => exact ⟨_, exec_gradient_iff.mpr ⟨_, filterProcess_ok hG, rfl⟩⟩
  | chain => exact exec_chain_completes hS hG
  | reserved101 => cases hi
  | reserved110 => cases hi
  | reserved111 => cases hi

/-- The operation a configured machine's mode selects completes. -/
theorem exec_mode_completes {s : State} (h : s.Inv) : ∃ t, exec (decode s.stage.mode) s = .next t := by
  have ⟨_, hmode, _⟩ := h
  exact legalOperationsComplete _ s h hmode

theorem cycleEdge_ne_fault {s : State} (h : s.Inv) (e : Fault) : cycleEdge s ≠ .fault e := by
  cases hr : cycleRefusal s with
  | some r => simp [cycleEdge_of_cycleRefusal hr]
  | none =>
    obtain ⟨t, ht⟩ := exec_mode_completes h
    simp [cycleEdge_of_cycleRefusal_none hr, ht]

/-- Settles O40: a reset edge calls no instance, and a cycle is refused or runs an operation that completes. -/
theorem noRuntimeFault : Obligations.NoRuntimeFault := by
  intro s hs e
  cases hr : s.present.ins.rst with
  | true =>
    rw [step_of_present_reset hr]
    exact resetEdge_ne_fault _ e
  | false =>
    rw [step_of_present_cycle hr]
    exact cycleEdge_ne_fault (present_inv hs) e

/-- A cycle of a configured machine that leaves `cfg_mode` at the mode has a successor. -/
theorem step_cycle_completes {s : State} (h : s.Inv) (hr : s.present.ins.rst = false)
    (hm : s.present.ins.cfgMode = s.stage.mode) : ∃ t, step s = .next t := by
  have ⟨hp, _⟩ := h
  rw [step_runs_mode hp hr hm, ← State.present_stage s]
  exact exec_mode_completes (present_inv h)

/-- A reset edge to a legal mode answers the construction state, whatever sample it carries (R168, R180). -/
theorem step_listing_reset {s : State} {bits : ModeBits} (hp : s.cfg.wf = true) (hm : (decode bits).wf = true)
    (x : Sample) (rest : List Edge) :
    step (s.listing (resetEdgeOf bits x :: rest)) =
      .next (State.driveDraw
        { s with stage := constructStage s.cfg bits, ins := resetEdgeOf bits x, pending := rest }) :=
  (step_of_reset_listed rfl rfl).trans
    (resetEdge_next (s := { s with ins := resetEdgeOf bits x, pending := rest }) hp hm)

/-- Settles O41: a cycle at the mode runs an operation that completes, and a reset to a legal mode constructs. -/
theorem everyConfiguredStateHasASuccessor : Obligations.EveryConfiguredStateHasASuccessor := by
  intro s hs
  have ⟨hp, _⟩ := hs
  exact ⟨fun x rest => step_cycle_completes (s := s.listing (cycleEdgeOf s.stage.mode x :: rest)) hs rfl rfl,
    fun bits x rest hm => ⟨_, step_listing_reset hp hm x rest⟩⟩

/-! ### The in_sample of a reset edge -/

/-- Settles O8: that the first edge is not refused says the configuration is legal, and the state it constructs holds the
sample on the input ports only. -/
theorem resetIgnoresSample : Obligations.ResetIgnoresSample := by
  intro s bits x y rest t h
  obtain ⟨hp, hm, rfl⟩ := resetEdge_cases ((step_of_reset_listed rfl rfl).symm.trans h)
  exact ⟨_, step_listing_reset hp hm y rest, rfl, rfl, rfl, rfl⟩

/-! ### The configuration check -/

/-- Well-formed parameters, as R162 states its conditions. -/
theorem params_wf_iff {prm : Params} : prm.wf = true ↔
    0 < prm.rowWidth ∧ (∀ h, prm.height = some h → 0 < h) ∧ prm.kernelSize % 2 = 1 ∧ prm.kernelSize = 3 ∧
      prm.kernelSize ≤ prm.rowWidth ∧ prm.rowWidth ≤ prm.widthMax := by
  have hheight : prm.heightPositive = true ↔ ∀ h, prm.height = some h → 0 < h := by
    unfold Config.Params.heightPositive
    cases prm.height <;> simp
  simp [Config.Params.wf, hheight, Config.Params.widthPositive, Config.Params.kernelOdd, Config.Params.kernelThree,
    Config.Params.kernelFitsRow, Config.Params.widthFits, and_assoc]

theorem modeReserved_iff {bits : ModeBits} :
    modeReserved bits = true ↔ bits = 0b101#3 ∨ bits = 0b110#3 ∨ bits = 0b111#3 := by
  revert bits; decide

/-- The reason the parameter check reports is one whose condition holds. -/
theorem refusalCondition_of_paramsRefusal {prm : Params} {bits : ModeBits} {r : Refusal}
    (h : paramsRefusal prm = some r) : refusalCondition r prm bits := by
  unfold paramsRefusal at h
  split_ifs at h with hwidth hheight heven hthree hrow hcapacity <;> cases h
  · exact hwidth
  · simpa [Option.any_eq_true] using hheight
  · exact heven
  · exact hthree
  · exact hrow
  · exact hcapacity

/-- Well-formed parameters leave no condition of R162 but the one on the mode. -/
theorem eq_reservedMode_of_refusalCondition {prm : Params} {bits : ModeBits} {r : Refusal} (hp : prm.wf = true)
    (h : refusalCondition r prm bits) : r = .reservedMode := by
  obtain ⟨hwidth, hheight, hodd, hthree, hrow, hcapacity⟩ := params_wf_iff.mp hp
  cases r with
  | badWidth => exact absurd hwidth (not_lt.mpr h)
  | badHeight =>
    obtain ⟨height, hdeclared, hle⟩ := h
    exact absurd (hheight height hdeclared) (not_lt.mpr hle)
  | evenKernel => exact absurd (hodd.symm.trans h) one_ne_zero
  | kernelNotThree => exact absurd hthree h
  | kernelWiderThanRow => exact absurd hrow (not_le.mpr h)
  | widthOverCapacity => exact absurd hcapacity (not_le.mpr h)
  | reservedMode => rfl
  | notModelled mnemonic => exact h.elim
  | modeChangeMidStream => exact h.elim

theorem exists_paramsRefusal {prm : Params} (h : prm.wf = false) : ∃ r, paramsRefusal prm = some r :=
  Option.ne_none_iff_exists'.mp fun hnone => by simp [paramsRefusal_eq_none.mp hnone] at h

/-- On a reset edge malformed parameters are refused before the mode is looked at. -/
theorem configRefusal_of_paramsRefusal {prm : Params} {r : Refusal} (h : paramsRefusal prm = some r)
    (bits : ModeBits) : configRefusal prm bits = some r := by
  simp [configRefusal, h]

theorem cycleRefusal_of_paramsRefusal {s : State} {r : Refusal} (h : paramsRefusal s.cfg = some r) :
    cycleRefusal s = some r := by
  simp [cycleRefusal, h]

/-- Under well-formed parameters only the mode is left to refuse. -/
theorem configRefusal_of_wf {prm : Params} (hp : prm.wf = true) (bits : ModeBits) :
    configRefusal prm bits = if modeReserved bits then some .reservedMode else none := by
  simp [configRefusal, paramsRefusal_eq_none.mpr hp]

/-- The reason the configuration check reports is one whose condition holds. -/
theorem refusalCondition_of_configRefusal {prm : Params} {bits : ModeBits} {r : Refusal}
    (h : configRefusal prm bits = some r) : refusalCondition r prm bits := by
  cases hp : paramsRefusal prm with
  | some r' =>
    rw [configRefusal_of_paramsRefusal hp] at h
    cases h
    exact refusalCondition_of_paramsRefusal hp
  | none =>
    rw [configRefusal_of_wf (paramsRefusal_eq_none.mp hp)] at h
    split_ifs at h with hm
    cases h
    exact modeReserved_iff.mp hm

/-- Where a condition of the table holds, the configuration check reports some reason, not always that one (log 11). -/
theorem exists_configRefusal_of_refusalCondition {prm : Params} {bits : ModeBits} {r : Refusal}
    (h : refusalCondition r prm bits) : ∃ r', configRefusal prm bits = some r' := by
  cases hp : paramsRefusal prm with
  | some r' => exact ⟨r', configRefusal_of_paramsRefusal hp bits⟩
  | none =>
    have hwf := paramsRefusal_eq_none.mp hp
    obtain rfl := eq_reservedMode_of_refusalCondition hwf h
    exact ⟨.reservedMode, by rw [configRefusal_of_wf hwf, if_pos (modeReserved_iff.mpr h)]⟩

/-! ### The refusals -/

/-- Settles O10: a reset edge is refused where its configuration check reports a reason. -/
theorem configurationRefusals : Obligations.ConfigurationRefusals := by
  intro s e rest hpend hr
  have hstep : ∀ r, step s = .refused r ↔ configRefusal s.cfg e.cfgMode = some r := fun r => by
    rw [step_of_reset_listed hpend hr, resetEdge_refused_iff]
  refine ⟨fun r h => refusalCondition_of_configRefusal ((hstep r).mp h), ?_⟩
  simp only [hstep]
  exact ⟨fun ⟨r, h⟩ => ⟨r, refusalCondition_of_configRefusal h⟩,
    fun ⟨_, h⟩ => exists_configRefusal_of_refusalCondition h⟩

/-- Settles O11: both kinds of edge check the parameters before anything else. -/
theorem malformedConfigurationHasNoStep : Obligations.MalformedConfigurationHasNoStep := by
  intro s hmalformed
  obtain ⟨r, hparams⟩ := exists_paramsRefusal hmalformed
  rw [← State.present_cfg s] at hparams
  refine ⟨r, ?_⟩
  cases hr : s.present.ins.rst with
  | true =>
    rw [step_of_present_reset hr]
    exact resetEdge_refused_iff.mpr (configRefusal_of_paramsRefusal hparams _)
  | false =>
    rw [step_of_present_cycle hr]
    exact cycleEdge_of_cycleRefusal (cycleRefusal_of_paramsRefusal hparams)

/-- Settles O12: past well-formed parameters the configuration check refuses the reserved values, and the reserved rows
answer nothing else. -/
theorem reservedModesAreRefused : Obligations.ReservedModesAreRefused := by
  refine ⟨fun s e rest hp hpend hr hreserved => ?sampled, fun s => ⟨rfl, rfl, rfl⟩⟩
  rw [step_of_reset_listed hpend hr]
  exact resetEdge_refused_iff.mpr ((configRefusal_of_wf hp _).trans (if_pos (modeReserved_iff.mpr hreserved)))

/-- Settles O13: a cycle compares `cfg_mode` with the mode before it runs anything. -/
theorem modeChangeMidStreamIsRefused : Obligations.ModeChangeMidStreamIsRefused := by
  intro s e rest hp hpend hr hne
  rw [step_of_cycle_listed hpend hr]
  exact cycleEdge_of_cycleRefusal (by simp [cycleRefusal, paramsRefusal_eq_none.mpr hp, hne])

end Sys2Proof.Machine

/-! PROOFS. The statements about reset and hazards: what a reset edge constructs and shows, the state after reset, the
startup latency of every mode with the cycles of a full image, and when INIT_FILL has left the outputs of CHAIN
(70_reset_and_hazards.md). -/

namespace Sys2Proof.Machine

open Sys2Proof.Config (Params)

/-! ### The startup latency -/

/-- The calls the instances that a mode feeds have had after `n` cycles since reset: `n`, but F_G of CHAIN is first
called on the cycle on which F_S becomes valid (R145, R146). -/
def Stage.CountersAfter (prm : Params) (st : Stage) (n : Nat) : Instr → Prop
  | .bypass => True
  | .smooth => st.fS.CountersAt prm n
  | .sharpen => st.fSH.CountersAt prm n
  | .gradient => st.fG.CountersAt prm n
  | .chain => st.fS.CountersAt prm n ∧ st.fG.CountersAt prm (n - (2 * prm.w - 1))
  | .reserved101 => True
  | .reserved110 => True
  | .reserved111 => True

theorem constructStage_countersAfter (prm : Params) (bits : ModeBits) (i : Instr) :
    (constructStage prm bits).CountersAfter prm 0 i := by
  have hinst := constructInst_countersAt prm
  cases i with
  | bypass => trivial
  | smooth => exact hinst
  | sharpen => exact hinst
  | gradient => exact hinst
  | chain => exact ⟨hinst, (Nat.zero_sub _).symm ▸ hinst⟩
  | reserved101 => trivial
  | reserved110 => trivial
  | reserved111 => trivial

theorem filterProcess_countersAt {red : Reduction} {prm : Params} (hw : 0 < prm.w) {n : Nat} {f : FilterInst}
    {x : Sample} {r : Processed} (hr : filterProcess red prm f x = .ok r) (h : f.CountersAt prm n) :
    r.inst.CountersAt prm (n + 1) := by
  obtain ⟨-, -, -, hinst⟩ := filterProcess_cases hr
  exact hinst ▸ instAfter_countersAt hw x h

/-- A cycle counts one more call of each instance it feeds; CHAIN feeds F_G from the cycle 2W − 1 on. -/
theorem exec_countersAfter {i : Instr} {s t : State} (hw : 0 < s.cfg.w) (h : exec i s = .next t) {n : Nat}
    (hs : s.stage.CountersAfter s.cfg n i) : t.stage.CountersAfter s.cfg (n + 1) i := by
  rcases exec_cases h with ⟨rfl, rfl⟩ | ⟨rfl, r, hr, rfl⟩ | ⟨rfl, r, hr, rfl⟩ | ⟨rfl, r, hr, rfl⟩ |
    ⟨rfl, rS, hrS, hfed⟩
  · trivial
  · exact filterProcess_countersAt hw hr hs
  · exact filterProcess_countersAt hw hr hs
  · exact filterProcess_countersAt hw hr hs
  · obtain ⟨hS, hG⟩ := hs
    have hnextS := filterProcess_countersAt hw hrS hS
    have hvalidS := (filterProcess_valid hrS).trans (filterValid_of_countersAt hw hnextS)
    obtain ⟨hv, rfl⟩ | ⟨hv, rG, hrG, rfl⟩ := hfed
    · have hearly : ¬ 2 * s.cfg.w ≤ n + 1 := of_decide_eq_false (hvalidS.symm.trans hv)
      have hcalls : n + 1 - (2 * s.cfg.w - 1) = n - (2 * s.cfg.w - 1) := by omega
      exact ⟨hnextS, hcalls ▸ hG⟩
    · have hlate : 2 * s.cfg.w ≤ n + 1 := of_decide_eq_true (hvalidS.symm.trans hv)
      have hcalls : n + 1 - (2 * s.cfg.w - 1) = n - (2 * s.cfg.w - 1) + 1 := by omega
      exact ⟨hnextS, hcalls ▸ filterProcess_countersAt hw hrG hG⟩

/-- The calls counted after cycle `n` say whether the startup of the mode is over (R146, R195). -/
theorem outValid_of_countersAfter {i : Instr} (hi : i.wf = true) {prm : Params} (hw : 0 < prm.w) {st : Stage} {n : Nat}
    (h : st.CountersAfter prm (n + 1) i) : st.outValid i = decide (startupLatency i prm.w ≤ n) := by
  have hone : 2 * prm.w ≤ n + 1 ↔ 2 * prm.w - 1 ≤ n := by omega
  cases i with
  | bypass => exact (decide_eq_true (Nat.zero_le n)).symm
  | smooth => exact (filterValid_of_countersAt hw h).trans (decide_eq_decide.mpr hone)
  | sharpen => exact (filterValid_of_countersAt hw h).trans (decide_eq_decide.mpr hone)
  | gradient => exact (filterValid_of_countersAt hw h).trans (decide_eq_decide.mpr hone)
  | chain =>
    obtain ⟨hS, hG⟩ := h
    have hboth : (2 * prm.w ≤ n + 1 ∧ 2 * prm.w ≤ n + 1 - (2 * prm.w - 1)) ↔ 4 * prm.w - 2 ≤ n := by omega
    calc chainValid (filterValid st.fS) (filterValid st.fG)
        = (decide (2 * prm.w ≤ n + 1) && decide (2 * prm.w ≤ n + 1 - (2 * prm.w - 1))) :=
          congrArg₂ chainValid (filterValid_of_countersAt hw hS) (filterValid_of_countersAt hw hG)
      _ = decide (4 * prm.w - 2 ≤ n) := (Bool.decide_and _ _).symm.trans (decide_eq_decide.mpr hboth)
  | reserved101 => cases hi
  | reserved110 => cases hi
  | reserved111 => cases hi

/-- A run of a legal mode that starts at cycle `n` shows valid outputs from cycle L on. -/
theorem trace_valid_of_countersAfter {i : Instr} (hi : i.wf = true) (xs : List Sample) :
    ∀ (n : Nat) (s : State), s.Inv → s.Streaming i xs → s.stage.CountersAfter s.cfg n i →
      (trace xs.length s).map Output.valid =
        (List.range' n xs.length).map fun m => decide (startupLatency i s.cfg.w ≤ m) := by
  induction xs with
  | nil => exact fun _ _ _ _ _ => rfl
  | cons x xs ih =>
    intro n s hinv h hs
    have hw : 0 < s.cfg.w := Nat.zero_lt_of_lt (three_le_w h.params)
    have hinv' := present_inv hinv
    obtain ⟨t, hexec⟩ := legalOperationsComplete i s.present hinv' hi
    obtain ⟨hcfg, -, -⟩ := exec_frame hexec
    rw [State.present_cfg] at hcfg
    have hnext : t.stage.CountersAfter s.cfg (n + 1) i := by
      simpa only [State.present_cfg] using
        exec_countersAfter (by rwa [State.present_cfg]) hexec (n := n) (by rwa [State.present_cfg, State.present_stage])
    have hout : t.out.valid = decide (startupLatency i s.cfg.w ≤ n) :=
      (exec_out_valid hexec).trans (outValid_of_countersAfter hi hw hnext)
    have htail := ih (n + 1) t (exec_keeps_inv hinv' hexec) (h.next hexec) (by rwa [hcfg])
    rw [h.trace_cons hexec, List.map_cons, hout, htail, hcfg, List.length_cons, List.range'_succ, List.map_cons]

/-- A machine that holds what a reset edge to a legal mode constructs is a configured one (R29, R181). -/
theorem State.inv_of_constructStage {s : State} {bits : ModeBits} (hp : s.cfg.wf = true)
    (hm : (decode bits).wf = true) (hstage : s.stage = constructStage s.cfg bits) : s.Inv := by
  have hinst : (constructInst s.cfg).Inv s.cfg := constructInst_inv (Nat.zero_lt_of_lt (three_le_w hp))
  unfold State.Inv
  rw [hstage]
  exact ⟨hp, hm, hinst, hinst, hinst⟩

/-- The `out_valid` of a stream: 0 on the reset edge, then 0 up to the startup latency and 1 from it on. -/
theorem map_valid_trace_streamEdges {s : State} {i : Instr} (hp : s.cfg.wf = true) (hi : i.wf = true)
    (xs : List Sample) :
    (trace (xs.length + 1) (s.listing (streamEdges (encode i) xs))).map Output.valid =
      false :: (List.range xs.length).map (fun n => decide (startupLatency i s.cfg.w ≤ n)) := by
  obtain ⟨t, htrace, hinvalid, hcfg, hstage, hstream⟩ := trace_streamEdges hp hi xs
  have hinv : t.Inv :=
    State.inv_of_constructStage hstream.params (by rwa [decode_encode]) (by rw [hstage, hcfg])
  have hstart : t.stage.CountersAfter t.cfg 0 i := by
    rw [hstage, hcfg]
    exact constructStage_countersAfter s.cfg (encode i) i
  have hcycles := trace_valid_of_countersAfter hi xs 0 t hinv hstream hstart
  rw [htrace, List.map_cons, hinvalid, hcycles, hcfg, List.range_eq_range']

theorem length_filter_le_range (d n : Nat) : ((List.range n).filter fun m => decide (d ≤ m)).length = n - d := by
  induction n with
  | zero => simp
  | succ n ih =>
    rw [List.range_succ, List.filter_append, List.length_append, ih]
    by_cases h : d ≤ n
    · simp only [h, List.filter_singleton, decide_true]
      exact (Nat.succ_sub h).symm
    · simp only [h, List.filter_singleton, decide_false]
      exact (Nat.sub_eq_zero_of_le (by omega)).trans (Nat.sub_eq_zero_of_le (by omega)).symm

/-- Settles O46: the validity of every cycle by the calls counted, and so the number of valid ones. -/
theorem startupLatency_law : Obligations.StartupLatency := by
  intro s i xs hp hi
  have hvalid := map_valid_trace_streamEdges hp hi xs
  refine ⟨hvalid, ?count⟩
  have hcount := congrArg (fun bits => (bits.filter id).length) hvalid
  simpa [List.filter_map, length_filter_le_range] using hcount

/-- Settles O47: N − L in natural numbers is W·H, which is above 0, only where N is W·H + L. -/
theorem cyclesForAFullImage : Obligations.CyclesForAFullImage := by
  intro s i xs h hp hi hh
  obtain ⟨-, hcount⟩ := startupLatency_law s i xs hp hi
  have himage : 0 < s.cfg.w * h := Nat.mul_pos (Nat.zero_lt_of_lt (three_le_w hp)) hh
  rw [hcount]
  omega

/-! ### INIT_FILL in CHAIN -/

theorem streamAt_eq_of_agree {fill : Sample} {ys zs : List Sample} {k : Nat}
    (hagree : ∀ m, k ≤ m → ys[m]? = zs[m]?) {m : Int} (hm : k ≤ m) : streamAt fill ys m = streamAt fill zs m := by
  lift m to Nat using by omega
  simp only [streamAt, Int.toNat_natCast, List.getD_eq_getElem?_getD, hagree m (by omega)]

/-- Streams that agree from sample `k` on fill the same window from call 2W + 2 + k on (R113). -/
theorem windowAt_eq_of_agree {prm : Params} {ys zs : List Sample} {k n : Nat}
    (hagree : ∀ m, k ≤ m → ys[m]? = zs[m]?) (hlow : 2 * prm.w + 2 + k ≤ n) :
    windowAt prm ys n = windowAt prm zs n := by
  refine SlidingWindow.eq_of_get fun i j hi hj => ?_
  rw [windowAt_get _ _ _ _ _ hi hj, windowAt_get _ _ _ _ _ hi hj, if_neg (by omega), if_neg (by omega)]
  have hback : (((3 : Nat) : Int) - 1 - i) * prm.w ≤ 2 * prm.w := mul_le_mul_of_nonneg_right (by omega) (by omega)
  exact streamAt_eq_of_agree hagree (by omega)

/-- INIT_FILL reaches no output of F_S from call 2W + 2 on (R116). -/
theorem smoothedStream_initFill (prm : Params) (v : Sample) (xs : List Sample) {m : Nat} (hlow : 2 * prm.w + 2 ≤ m) :
    (smoothedStream { prm with initFill := v } xs)[m]? = (smoothedStream prm xs)[m]? := by
  by_cases hm : m < xs.length
  · simp [smoothedStream, hm, windowAt_initFill v hlow hm, reduce_initFill]
  · simp [smoothedStream, hm]

/-- The window of F_G of CHAIN holds neither its own INIT_FILL nor one that came through F_S from F_G's call 2W + 5
on. -/
theorem windowAt_smoothedStream_initFill (prm : Params) (v : Sample) (xs : List Sample) {n : Nat}
    (hlow : 2 * prm.w + 5 ≤ n) (hn : n < xs.length - (2 * prm.w - 1)) :
    windowAt { prm with initFill := v }
        ((smoothedStream { prm with initFill := v } xs).drop (2 * prm.w - 1)) n =
      windowAt prm ((smoothedStream prm xs).drop (2 * prm.w - 1)) n := by
  have hlen : n < ((smoothedStream { prm with initFill := v } xs).drop (2 * prm.w - 1)).length := by
    simpa [smoothedStream] using hn
  rw [windowAt_initFill v (by omega) hlen]
  refine windowAt_eq_of_agree (k := 3) (fun m hm => ?_) hlow
  rw [List.getElem?_drop, List.getElem?_drop, smoothedStream_initFill prm v xs (by omega)]

/-- A run of `n` edges shows nothing past them. -/
theorem trace_getElem?_of_le {n m : Nat} (s : State) (h : n ≤ m) : (trace n s)[m]? = none :=
  List.getElem?_eq_none ((trace_length_le n s).trans h)

/-- Settles O52: both runs show the gradient of one window, which holds no INIT_FILL any more. -/
theorem chainIgnoresRowResetAfterSixValid : Obligations.ChainIgnoresRowResetAfterSixValid := by
  intro s u v xs n hp hcfg hlow
  have hpu : u.cfg.wf = true := by
    rw [hcfg]
    exact hp
  have hwu : u.cfg.w = s.cfg.w := by
    rw [hcfg]
    rfl
  have hw : 3 ≤ s.cfg.w := three_le_w hp
  by_cases hn : n < xs.length
  · rw [chainOutputClosedForm s xs n hp hn (by omega), chainOutputClosedForm u xs n hpu hn (by omega), hwu, hcfg,
      windowAt_smoothedStream_initFill s.cfg v xs (by omega) (by omega)]
  · rw [trace_getElem?_of_le _ (by omega), trace_getElem?_of_le _ (by omega)]

/-! ### The reset edge -/

/-- A reset edge on which no condition of R162's table holds leaves the construction state (R180, R182). -/
theorem step_reset_of_no_refusal {s : State} {e : Edge} {rest : List Edge} (hpend : s.pending = e :: rest)
    (hr : e.rst = true) (hlegal : ¬ ∃ r, refusalCondition r s.cfg e.cfgMode) :
    step s = .next (State.driveDraw
      { s with stage := constructStage s.cfg e.cfgMode, ins := e, pending := rest }) := by
  have hcheck : configRefusal s.cfg e.cfgMode = none :=
    Option.eq_none_iff_forall_ne_some.mpr fun r h => hlegal ⟨r, refusalCondition_of_configRefusal h⟩
  rw [step_of_reset_listed hpend hr]
  simp [resetEdge, hcheck]

/-- Every element of a constructed instance has its construction value (R180). -/
theorem constructInst_elements (prm : Params) :
    (∀ i p, i < 2 → p < prm.w → memRead prm (constructInst prm).rh.rows i p = prm.initFill) ∧
    (constructInst prm).rh.cursor = 0 ∧ (constructInst prm).rh.completed = 0 ∧
    (∀ i j : Fin 3, (constructInst prm).sw.win[i][j] = prm.winInit) ∧
    (constructInst prm).xCnt = 0 ∧ (constructInst prm).yCnt = 0 :=
  ⟨fun _ _ _ _ => Memory.read_nil _ _, rfl, rfl, fun i j => constructInst_window_get prm i j i.isLt j.isLt, rfl, rfl⟩

/-- Settles O6: the configuration check reports a reason where a condition holds, and otherwise all three instances are
constructed. -/
theorem resetEdgeConstructs : Obligations.ResetEdgeConstructs := by
  refine fun s e rest hpend hr => ⟨fun hrefused => ?refused, fun hlegal => ?constructed⟩
  case refused =>
    obtain ⟨-, hiff⟩ := configurationRefusals s e rest hpend hr
    exact hiff.mpr hrefused
  case constructed =>
    refine ⟨_, step_reset_of_no_refusal hpend hr hlegal, rfl, rfl, rfl, fun f hf => ?_⟩
    obtain rfl : f = constructInst s.cfg := by simpa [State.driveDraw, constructStage] using hf
    exact constructInst_elements s.cfg

/-- Settles O7: the construction drives a draw. -/
theorem resetEdgeOutputs : Obligations.ResetEdgeOutputs :=
  fun _ _ _ hpend hr hlegal => ⟨_, step_reset_of_no_refusal hpend hr hlegal, rfl, rfl, rfl⟩

/-- Settles O9: the second reset edge constructs the same Stage from the state the first one left. -/
theorem consecutiveResetsActAsOne : Obligations.ConsecutiveResetsActAsOne := by
  intro s a b x y hp ha hb
  have hfirst := step_listing_reset hp ha x [resetEdgeOf b y]
  have hsecond := (step_of_reset_listed (s := State.driveDraw
      { s with stage := constructStage s.cfg a, ins := resetEdgeOf a x, pending := [resetEdgeOf b y] }) rfl rfl).trans
    (resetEdge_next hp hb)
  exact ⟨_, _, (steps_succ hfirst).trans (steps_succ hsecond), step_listing_reset hp hb y [], rfl, rfl, rfl⟩

/-! ### The state after reset -/

/-- Settles O38: it is the construction state of the mode 000 under the standard parameters (log 2, log 3). -/
theorem resetStateMeetsInvariant : Obligations.ResetStateMeetsInvariant := by
  have hparams : State.reset.cfg.wf = true := by decide
  have hmode : (decode 0b000#3).wf = true := by decide
  exact State.inv_of_constructStage hparams hmode rfl

end Sys2Proof.Machine
